-- ==== Sys2Proof/Word.lean ====
section
/-!
DEFINITION. The word types of the dbv_rs core and their plainest arithmetic: 32-bit words for register and operand
values (spec/00_scope.md R8 `XLEN`, `WORD`; R11), bytes for memory and the three flags, 4-bit register indices
(spec/40_decoder.md R113).
-/

namespace Sys2Proof

/-- A 32-bit value: a general register, an operand value, a raw word, pc and sp (R8, R11, R25, R27). -/
abbrev Word := BitVec 32

/-- A byte of data memory, and the width of each flag register (R8 `FLAG_WIDTH`). -/
abbrev Byte := BitVec 8

/-- A register index as a word field holds it: 4 bits, so always in 0 .. 15 (R113, R127). -/
abbrev RegIdx := BitVec 4

/-- `a -32 b`: the difference modulo 2^32 (R11). -/
abbrev sub32 (a b : Word) : Word := a - b

/-- `a *32 b`: the product modulo 2^32 (R11). -/
abbrev mul32 (a b : Word) : Word := a * b

end Sys2Proof
end

