-- ==== Sys2Proof/Syntax.lean ====
section
/-!
DEFINITION. The syntax of the dbv_rs ISA, whole: the 33 opcodes (spec/30_encoding.md R89), the four addressing modes
(R85), the operand list of each of the five formats (R86, spec/40_decoder.md R113), and one constructor of `Instr` for
each of the 52 rows of spec/opcode_table.json. Beside them the decode errors (spec/60_exceptions.md R230) and the
partial instruction a streaming decoder holds (spec/10_state.md R39).
-/

namespace Sys2Proof

/-- The 33 mnemonics (R89): eight with semantics, then the 25 reserved ones, in the order of R90. -/
inductive Opcode where
  | set
  | sub
  | mul
  | sd
  | cmp
  | jmp
  | ifn
  | hlt
  | psh
  | pop
  | mov
  | add
  | div
  | andOp
  | orOp
  | xor
  | notOp
  | sl
  | sr
  | ld
  | sd16
  | ld16
  | sd8
  | ld8
  | ld16s
  | ld8s
  | ifOp
  | ifg
  | ifl
  | ife
  | ifne
  | call
  | ret
  deriving DecidableEq, Repr

/-- All 33 mnemonics, in the order of R90. -/
def Opcode.all : List Opcode :=
  [.set, .sub, .mul, .sd, .cmp, .jmp, .ifn, .hlt] ++
  [.psh, .pop, .mov, .add, .div, .andOp, .orOp, .xor, .notOp, .sl, .sr] ++
  [.ld, .sd16, .ld16, .sd8, .ld8, .ld16s, .ld8s] ++
  [.ifOp, .ifg, .ifl, .ife, .ifne, .call, .ret]

/-- The four addressing modes (R85). -/
inductive AddrMode where
  | register
  | immediate
  | registerIndirect
  | baseOffset
  deriving DecidableEq, Repr

/-- The operand list of one decoded instruction, by format (R86, R113). `dest` is slot 0, `src1` slot 1, `src2` or
the immediate value slot 2, the offset slot 3 (R13). A 4-bit field that is a value (the inline literal, the offset) is
held as the 32-bit operand value of R111; `WellFormed.lean` says that it fits its field. -/
inductive Form where
  /-- Format R, Register mode: `[dest, src1, src2]`. -/
  | r (dest src1 src2 : RegIdx)
  /-- Format I, Immediate mode, extension flag clear: `[dest, src1, literal]`. -/
  | i (dest src1 : RegIdx) (value : Word)
  /-- Format X, Immediate mode, extension flag set: `[dest, src1, extension word]`. -/
  | x (dest src1 : RegIdx) (value : Word)
  /-- Format M, RegisterIndirect mode: `[dest, src1, src2]`, src2 the address-holding register. -/
  | m (dest src1 src2 : RegIdx)
  /-- Format B, BaseOffset mode: `[dest, src1, src2, offset]`, src2 the base register. -/
  | b (dest src1 src2 : RegIdx) (offset : Word)
  deriving DecidableEq, Repr

/-- One constructor per row of spec/opcode_table.json. The last letter of an implemented instruction's constructor is
its format (R86). HLT and the reserved opcodes have one row each for every format (R91), so they carry the whole
operand list. -/
inductive Instr where
  | setR (dest src1 src2 : RegIdx)
  | setI (dest src1 : RegIdx) (value : Word)
  | setX (dest src1 : RegIdx) (value : Word)
  | setM (dest src1 src2 : RegIdx)
  | setB (dest src1 src2 : RegIdx) (offset : Word)
  | subR (dest src1 src2 : RegIdx)
  | subI (dest src1 : RegIdx) (value : Word)
  | subX (dest src1 : RegIdx) (value : Word)
  | subM (dest src1 src2 : RegIdx)
  | subB (dest src1 src2 : RegIdx) (offset : Word)
  | mulR (dest src1 src2 : RegIdx)
  | mulI (dest src1 : RegIdx) (value : Word)
  | mulX (dest src1 : RegIdx) (value : Word)
  | mulM (dest src1 src2 : RegIdx)
  | mulB (dest src1 src2 : RegIdx) (offset : Word)
  | sdI (dest src1 : RegIdx) (value : Word)
  | sdX (dest src1 : RegIdx) (value : Word)
  | sdM (dest src1 src2 : RegIdx)
  | sdB (dest src1 src2 : RegIdx) (offset : Word)
  | cmpR (dest src1 src2 : RegIdx)
  | jmpR (dest src1 src2 : RegIdx)
  | jmpI (dest src1 : RegIdx) (value : Word)
  | jmpX (dest src1 : RegIdx) (value : Word)
  | ifnR (dest src1 src2 : RegIdx)
  | ifnI (dest src1 : RegIdx) (value : Word)
  | ifnX (dest src1 : RegIdx) (value : Word)
  | hlt (form : Form)
  | psh (form : Form)
  | pop (form : Form)
  | mov (form : Form)
  | add (form : Form)
  | div (form : Form)
  | andOp (form : Form)
  | orOp (form : Form)
  | xor (form : Form)
  | notOp (form : Form)
  | sl (form : Form)
  | sr (form : Form)
  | ld (form : Form)
  | sd16 (form : Form)
  | ld16 (form : Form)
  | sd8 (form : Form)
  | ld8 (form : Form)
  | ld16s (form : Form)
  | ld8s (form : Form)
  | ifOp (form : Form)
  | ifg (form : Form)
  | ifl (form : Form)
  | ife (form : Form)
  | ifne (form : Form)
  | call (form : Form)
  | ret (form : Form)
  deriving DecidableEq, Repr

/-- The opcode of an instruction: the first part of the triple of R33. -/
def Instr.opcode : Instr → Opcode
  | .setR _ _ _ => .set
  | .setI _ _ _ => .set
  | .setX _ _ _ => .set
  | .setM _ _ _ => .set
  | .setB _ _ _ _ => .set
  | .subR _ _ _ => .sub
  | .subI _ _ _ => .sub
  | .subX _ _ _ => .sub
  | .subM _ _ _ => .sub
  | .subB _ _ _ _ => .sub
  | .mulR _ _ _ => .mul
  | .mulI _ _ _ => .mul
  | .mulX _ _ _ => .mul
  | .mulM _ _ _ => .mul
  | .mulB _ _ _ _ => .mul
  | .sdI _ _ _ => .sd
  | .sdX _ _ _ => .sd
  | .sdM _ _ _ => .sd
  | .sdB _ _ _ _ => .sd
  | .cmpR _ _ _ => .cmp
  | .jmpR _ _ _ => .jmp
  | .jmpI _ _ _ => .jmp
  | .jmpX _ _ _ => .jmp
  | .ifnR _ _ _ => .ifn
  | .ifnI _ _ _ => .ifn
  | .ifnX _ _ _ => .ifn
  | .hlt _ => .hlt
  | .psh _ => .psh
  | .pop _ => .pop
  | .mov _ => .mov
  | .add _ => .add
  | .div _ => .div
  | .andOp _ => .andOp
  | .orOp _ => .orOp
  | .xor _ => .xor
  | .notOp _ => .notOp
  | .sl _ => .sl
  | .sr _ => .sr
  | .ld _ => .ld
  | .sd16 _ => .sd16
  | .ld16 _ => .ld16
  | .sd8 _ => .sd8
  | .ld8 _ => .ld8
  | .ld16s _ => .ld16s
  | .ld8s _ => .ld8s
  | .ifOp _ => .ifOp
  | .ifg _ => .ifg
  | .ifl _ => .ifl
  | .ife _ => .ife
  | .ifne _ => .ifne
  | .call _ => .call
  | .ret _ => .ret

/-- The operand list of an instruction with its format: the second and third parts of the triple of R33. -/
def Instr.form : Instr → Form
  | .setR d a b => .r d a b
  | .setI d a v => .i d a v
  | .setX d a v => .x d a v
  | .setM d a b => .m d a b
  | .setB d a b o => .b d a b o
  | .subR d a b => .r d a b
  | .subI d a v => .i d a v
  | .subX d a v => .x d a v
  | .subM d a b => .m d a b
  | .subB d a b o => .b d a b o
  | .mulR d a b => .r d a b
  | .mulI d a v => .i d a v
  | .mulX d a v => .x d a v
  | .mulM d a b => .m d a b
  | .mulB d a b o => .b d a b o
  | .sdI d a v => .i d a v
  | .sdX d a v => .x d a v
  | .sdM d a b => .m d a b
  | .sdB d a b o => .b d a b o
  | .cmpR d a b => .r d a b
  | .jmpR d a b => .r d a b
  | .jmpI d a v => .i d a v
  | .jmpX d a v => .x d a v
  | .ifnR d a b => .r d a b
  | .ifnI d a v => .i d a v
  | .ifnX d a v => .x d a v
  | .hlt f => f
  | .psh f => f
  | .pop f => f
  | .mov f => f
  | .add f => f
  | .div f => f
  | .andOp f => f
  | .orOp f => f
  | .xor f => f
  | .notOp f => f
  | .sl f => f
  | .sr f => f
  | .ld f => f
  | .sd16 f => f
  | .ld16 f => f
  | .sd8 f => f
  | .ld8 f => f
  | .ld16s f => f
  | .ld8s f => f
  | .ifOp f => f
  | .ifg f => f
  | .ifl f => f
  | .ife f => f
  | .ifne f => f
  | .call f => f
  | .ret f => f

/-- The three kinds of decode error (spec/60_exceptions.md R230, R231). -/
inductive DecodeErrorKind where
  /-- The opcode byte is no mnemonic's byte. -/
  | invalidOpcode (byte : Byte)
  /-- A recognized opcode in a mode it does not admit. -/
  | invalidMode (value : BitVec 2)
  /-- An Immediate-mode word with its extension flag set is the last word. -/
  | truncatedExtension
  deriving DecidableEq, Repr

/-- A decode error with the word index and the raw word it is reported at (R117, R233). -/
structure DecodeError where
  kind : DecodeErrorKind
  index : Nat
  raw : Word
  deriving DecidableEq, Repr

/-- The partial instruction a streaming decoder holds while it waits for the extension word (R39): its opcode, dest
and src1, the mode being Immediate. The word index and the raw word are kept for the error report of R116. -/
structure PartialInstr where
  op : Opcode
  dest : RegIdx
  src1 : RegIdx
  index : Nat
  raw : Word
  deriving DecidableEq, Repr

end Sys2Proof
end

