-- ==== Sys2Proof/Config.lean ====
section
/-!
DEFINITION. The implementation parameters of spec/00_scope.md R8 that an implementation fixes. `OPC` is a type of maps,
so that the decoder and the encoder take it as an argument (spec/30_encoding.md R89); the reference assignment stands in
Decode.lean. `MEM_CAPACITY`, `MEM_FILL` and `STEP_LIMIT` are fields of State; the constants here are what
`State.reset` puts there, but for MEM_FILL, which stands in Machine/ResetValues.lean (notes/assumptions/4.md).
-/

namespace Sys2Proof

/-- An opcode map `OPC`: an injective map from the 33 mnemonics into the bytes (R89, 92 D1). -/
structure OpcodeMap where
  byte : Opcode → Byte
  injective : ∀ a b, byte a = byte b → a = b

/-- The reference `MEM_CAPACITY`, 16 777 215 bytes (R8, R50). -/
def Config.memCapacity : Nat := 0x00FFFFFF

/-- The largest `MEM_CAPACITY` the constraint allows (R8, 92 D13). -/
def Config.maxCapacity : Nat := 2 ^ 32

/-- Every program is shorter than this: `N < 2^32` (R8, 92 D15). -/
def Config.maxProgram : Nat := 2 ^ 32

/-- `STEP_LIMIT` is absent by default (R8, R228). -/
def Config.stepLimit : Option Nat := none

/-- The reference `DUMP_ADDR` (R8, R226). -/
def Config.dumpAddr : Option Nat := some 0x2000

end Sys2Proof
end

