-- ==== Sys2Proof/WellFormed.lean ====
section
/-!
DEFINITION. Well-formedness of instructions. Register fields are 4-bit by type (spec/40_decoder.md R113, R127); the two
operand values that come from a 4-bit field but are held as 32-bit values (R111) must fit the field: the inline literal
and the offset are in 0 .. 15 (spec/30_encoding.md R87). Nothing else about an instruction can be ill formed: which
pairs of opcode and mode exist (R91) is in the constructors of `Instr` themselves.
-/

namespace Sys2Proof

/-- A value that a 4-bit field can hold: 0 .. 15 (R87). -/
def fits4 (v : Word) : Bool := v.toNat < 16

/-- The inline literal of format I and the offset of format B fit their 4-bit fields (R87). An extension word is any
32-bit value (R115). -/
def Form.wf : Form → Bool
  | .r _ _ _ => true
  | .i _ _ value => fits4 value
  | .x _ _ _ => true
  | .m _ _ _ => true
  | .b _ _ _ offset => fits4 offset

/-- An instruction is well formed when its operand list is. -/
def Instr.wf (i : Instr) : Bool := i.form.wf

end Sys2Proof
end

