-- ==== Sys2Proof/Decode.lean ====
section
/-!
DEFINITION. The Decoder and the encoder (spec/30_encoding.md, spec/40_decoder.md). Field extraction with the source's
masks (R83), the modes each opcode admits (R91), the whole-program algorithm (R111), the streaming form with one pending
partial instruction (R39, R114), the reference opcode assignment (R90), the encoder (R98), the assembly notation
(R96), and the grouping of file bytes into words (R82). Decoding is total on any word sequence and rejects by name.
-/

namespace Sys2Proof

/-! ## The opcode map -/

/-- The reference assignment (R90, 92 D1): the bytes 0x01 .. 0x21 in the order the source first lists the mnemonics.
It is the spec's own and not the repository's numbering. -/
def Opcode.referenceByte : Opcode → Byte
  | .set => 0x01#8
  | .sub => 0x02#8
  | .mul => 0x03#8
  | .sd => 0x04#8
  | .cmp => 0x05#8
  | .jmp => 0x06#8
  | .ifn => 0x07#8
  | .hlt => 0x08#8
  | .psh => 0x09#8
  | .pop => 0x0A#8
  | .mov => 0x0B#8
  | .add => 0x0C#8
  | .div => 0x0D#8
  | .andOp => 0x0E#8
  | .orOp => 0x0F#8
  | .xor => 0x10#8
  | .notOp => 0x11#8
  | .sl => 0x12#8
  | .sr => 0x13#8
  | .ld => 0x14#8
  | .sd16 => 0x15#8
  | .ld16 => 0x16#8
  | .sd8 => 0x17#8
  | .ld8 => 0x18#8
  | .ld16s => 0x19#8
  | .ld8s => 0x1A#8
  | .ifOp => 0x1B#8
  | .ifg => 0x1C#8
  | .ifl => 0x1D#8
  | .ife => 0x1E#8
  | .ifne => 0x1F#8
  | .call => 0x20#8
  | .ret => 0x21#8

/-- The reference assignment is injective, as R89 asks of every `OPC`. -/
theorem Opcode.referenceByte_injective (a b : Opcode) (h : a.referenceByte = b.referenceByte) : a = b := by
  cases a <;> cases b <;> first | rfl | (exact absurd h (by decide))

/-- The reference assignment as an opcode map. -/
def OpcodeMap.reference : OpcodeMap := ⟨Opcode.referenceByte, Opcode.referenceByte_injective⟩

/-- The opcode map the host's table is written in (R99, notes/assumptions/1.md). -/
def opc : OpcodeMap := OpcodeMap.reference

/-- `OPC_inv`: the mnemonic whose opcode byte is `byte`, or none (R111). -/
def OpcodeMap.inv (m : OpcodeMap) (byte : Byte) : Option Opcode :=
  Opcode.all.find? (fun op => m.byte op == byte)

/-! ## Addressing modes -/

/-- The value of the mode field that selects each addressing mode (R85, 92 D2). -/
def AddrMode.bits : AddrMode → BitVec 2
  | .register => 0#2
  | .immediate => 1#2
  | .registerIndirect => 2#2
  | .baseOffset => 3#2

/-- The addressing mode a mode field selects (R85). All four values are modes. -/
def AddrMode.ofBits (b : BitVec 2) : AddrMode :=
  if b = 0#2 then .register
  else if b = 1#2 then .immediate
  else if b = 2#2 then .registerIndirect
  else .baseOffset

/-- The addressing mode of a format: formats I and X are both Immediate mode (R85, R86). -/
def Form.mode : Form → AddrMode
  | .r _ _ _ => .register
  | .i _ _ _ => .immediate
  | .x _ _ _ => .immediate
  | .m _ _ _ => .registerIndirect
  | .b _ _ _ _ => .baseOffset

/-- The second part of the decoded triple of R33. -/
def Instr.mode (i : Instr) : AddrMode := i.form.mode

/-- The operand list of R113, every operand a 32-bit unsigned value with the 4-bit fields zero-extended (R111). -/
def Form.operands : Form → List Word
  | .r d s1 s2 => [d.setWidth 32, s1.setWidth 32, s2.setWidth 32]
  | .i d s1 v => [d.setWidth 32, s1.setWidth 32, v]
  | .x d s1 v => [d.setWidth 32, s1.setWidth 32, v]
  | .m d s1 s2 => [d.setWidth 32, s1.setWidth 32, s2.setWidth 32]
  | .b d s1 s2 o => [d.setWidth 32, s1.setWidth 32, s2.setWidth 32, o]

/-- The third part of the decoded triple of R33. It does not tell format I from format X (R121). -/
def Instr.operands (i : Instr) : List Word := i.form.operands

/-- Whether an instruction is two words long: an Immediate-mode word with its extension flag set (R80, R88). -/
def Form.extended : Form → Bool
  | .r _ _ _ => false
  | .i _ _ _ => false
  | .x _ _ _ => true
  | .m _ _ _ => false
  | .b _ _ _ _ => false

/-- Whether an instruction takes an extension word (R88, R119). -/
def Instr.extended (i : Instr) : Bool := i.form.extended

/-- The length of an instruction in words: 2 exactly when it is extended (R80, R88). -/
def Instr.lengthWords (i : Instr) : Nat := if i.extended then 2 else 1

/-- `Admitted(op, mode)`: the `yes` entries of R91. -/
def Opcode.admits : Opcode → AddrMode → Bool
  | .sd, .register => false
  | .cmp, .immediate => false
  | .cmp, .registerIndirect => false
  | .cmp, .baseOffset => false
  | .jmp, .registerIndirect => false
  | .jmp, .baseOffset => false
  | .ifn, .registerIndirect => false
  | .ifn, .baseOffset => false
  | _, _ => true

/-- The instruction with a given opcode and operand list, or none where the opcode does not admit the mode (R91). -/
def Instr.ofForm : Opcode → Form → Option Instr
  | .set, .r d a b => some (.setR d a b)
  | .set, .i d a v => some (.setI d a v)
  | .set, .x d a v => some (.setX d a v)
  | .set, .m d a b => some (.setM d a b)
  | .set, .b d a b o => some (.setB d a b o)
  | .sub, .r d a b => some (.subR d a b)
  | .sub, .i d a v => some (.subI d a v)
  | .sub, .x d a v => some (.subX d a v)
  | .sub, .m d a b => some (.subM d a b)
  | .sub, .b d a b o => some (.subB d a b o)
  | .mul, .r d a b => some (.mulR d a b)
  | .mul, .i d a v => some (.mulI d a v)
  | .mul, .x d a v => some (.mulX d a v)
  | .mul, .m d a b => some (.mulM d a b)
  | .mul, .b d a b o => some (.mulB d a b o)
  | .sd, .r _ _ _ => none
  | .sd, .i d a v => some (.sdI d a v)
  | .sd, .x d a v => some (.sdX d a v)
  | .sd, .m d a b => some (.sdM d a b)
  | .sd, .b d a b o => some (.sdB d a b o)
  | .cmp, .r d a b => some (.cmpR d a b)
  | .cmp, .i _ _ _ => none
  | .cmp, .x _ _ _ => none
  | .cmp, .m _ _ _ => none
  | .cmp, .b _ _ _ _ => none
  | .jmp, .r d a b => some (.jmpR d a b)
  | .jmp, .i d a v => some (.jmpI d a v)
  | .jmp, .x d a v => some (.jmpX d a v)
  | .jmp, .m _ _ _ => none
  | .jmp, .b _ _ _ _ => none
  | .ifn, .r d a b => some (.ifnR d a b)
  | .ifn, .i d a v => some (.ifnI d a v)
  | .ifn, .x d a v => some (.ifnX d a v)
  | .ifn, .m _ _ _ => none
  | .ifn, .b _ _ _ _ => none
  | .hlt, f => some (.hlt f)
  | .psh, f => some (.psh f)
  | .pop, f => some (.pop f)
  | .mov, f => some (.mov f)
  | .add, f => some (.add f)
  | .div, f => some (.div f)
  | .andOp, f => some (.andOp f)
  | .orOp, f => some (.orOp f)
  | .xor, f => some (.xor f)
  | .notOp, f => some (.notOp f)
  | .sl, f => some (.sl f)
  | .sr, f => some (.sr f)
  | .ld, f => some (.ld f)
  | .sd16, f => some (.sd16 f)
  | .ld16, f => some (.ld16 f)
  | .sd8, f => some (.sd8 f)
  | .ld8, f => some (.ld8 f)
  | .ld16s, f => some (.ld16s f)
  | .ld8s, f => some (.ld8s f)
  | .ifOp, f => some (.ifOp f)
  | .ifg, f => some (.ifg f)
  | .ifl, f => some (.ifl f)
  | .ife, f => some (.ife f)
  | .ifne, f => some (.ifne f)
  | .call, f => some (.call f)
  | .ret, f => some (.ret f)

/-! ## Field extraction -/

/-- `opcode = (word & 0xFF000000) >> 24` (R83). -/
def opcodeField (w : Word) : Byte := ((w &&& 0xFF000000#32) >>> 24).setWidth 8

/-- `mode = (word & 0x00F00000) >> 22` (R83). The shift drops bits 21 and 20, so two bits hold the result. -/
def modeField (w : Word) : BitVec 2 := ((w &&& 0x00F00000#32) >>> 22).setWidth 2

/-- `arguments = word & 0x000FFFFF` (R83). -/
def arguments (w : Word) : Word := w &&& 0x000FFFFF#32

/-- `args[15:12]`, operand slot 0 in every mode (R113). -/
def destField (w : Word) : RegIdx := (arguments w).extractLsb' 12 4

/-- `args[11:8]`, operand slot 1 in every mode (R113). -/
def src1Field (w : Word) : RegIdx := (arguments w).extractLsb' 8 4

/-- `args[7:4]`: src2, the inline literal, the address-holding register or the base register, by mode (R113). -/
def field74 (w : Word) : BitVec 4 := (arguments w).extractLsb' 4 4

/-- `args[3:0]`: the offset in BaseOffset mode (R113). -/
def field30 (w : Word) : BitVec 4 := (arguments w).extractLsb' 0 4

/-- `args[0]`, the extension flag in Immediate mode (R114). -/
def extFlag (w : Word) : Bool := (arguments w).getLsbD 0

/-! ## Decoding one instruction -/

/-- What the first word of an instruction gives (R111): a whole instruction, or the opcode, dest and src1 of one whose
third operand is the next word. -/
inductive FirstWord where
  | whole (i : Instr)
  | extended (op : Opcode) (dest src1 : RegIdx)
  deriving DecidableEq, Repr

/-- The operand list of a word that needs no extension word, by mode (R113). -/
def inlineForm (w : Word) : Form :=
  match AddrMode.ofBits (modeField w) with
  | .register => .r (destField w) (src1Field w) (field74 w)
  | .immediate => .i (destField w) (src1Field w) ((field74 w).setWidth 32)
  | .registerIndirect => .m (destField w) (src1Field w) (field74 w)
  | .baseOffset => .b (destField w) (src1Field w) (field74 w) ((field30 w).setWidth 32)

/-- Whether a word takes an extension word: mode 1 with bit 0 set, whatever the opcode (R88, R119). -/
def takesExtension (w : Word) : Bool := modeField w == 1#2 && extFlag w

/-- The checks and the extraction of R111 on one word in instruction position, in its order: opcode, admitted mode,
operands (R117). -/
def decodeFirst (m : OpcodeMap) (w : Word) : Except DecodeErrorKind FirstWord :=
  match m.inv (opcodeField w) with
  | none => .error (.invalidOpcode (opcodeField w))
  | some op =>
    if takesExtension w then
      if op.admits .immediate then .ok (.extended op (destField w) (src1Field w))
      else .error (.invalidMode (modeField w))
    else
      match Instr.ofForm op (inlineForm w) with
      | some i => .ok (.whole i)
      | none => .error (.invalidMode (modeField w))

/-- The instruction an extended first word makes with its extension word, which is taken verbatim (R114, R115). The
opcode has been admitted in Immediate mode by then, so there always is one. -/
def withExtension (op : Opcode) (dest src1 : RegIdx) (v : Word) : Except DecodeErrorKind Instr :=
  match Instr.ofForm op (.x dest src1 v) with
  | some i => .ok i
  | none => .error (.invalidMode AddrMode.immediate.bits)

/-- The instruction whose first word is `w`, the word after it being `next`. -/
def decodeOne (m : OpcodeMap) (w next : Word) : Except DecodeErrorKind Instr :=
  match decodeFirst m w with
  | .error e => .error e
  | .ok (.whole i) => .ok i
  | .ok (.extended op dest src1) => withExtension op dest src1 next

/-! ## Decoding a program -/

/-- `Decode` of R111 from word index `k` on. The first error in word order ends it (R117). -/
def decodeFrom (m : OpcodeMap) : Nat → List Word → Except DecodeError (List Instr)
  | _, [] => .ok []
  | k, w :: rest =>
    match decodeFirst m w with
    | .error e => .error ⟨e, k, w⟩
    | .ok (.whole i) => (decodeFrom m (k + 1) rest).map (i :: ·)
    | .ok (.extended op dest src1) =>
      match rest with
      | [] => .error ⟨.truncatedExtension, k, w⟩
      | v :: rest' =>
        match withExtension op dest src1 v with
        | .error e => .error ⟨e, k, w⟩
        | .ok i => (decodeFrom m (k + 2) rest').map (i :: ·)
termination_by structural _ ws => ws

/-- `Decode(W[0 .. L-1])` (R111): the decoded instruction store of a raw word sequence, or the first decode error. -/
def decode (m : OpcodeMap) (ws : List Word) : Except DecodeError (List Instr) := decodeFrom m 0 ws

/-! ## The streaming decoder -/

/-- One word given to a streaming decoder (R39, R114): with a partial instruction pending the word is its operand;
otherwise it is decoded as a fresh instruction, which may leave one pending. The answer is the instruction completed by
the word, if any, and the new extension state. -/
def feedWord (m : OpcodeMap) (ext : Option PartialInstr) (k : Nat) (w : Word) :
    Except DecodeError (Option Instr × Option PartialInstr) :=
  match ext with
  | some p =>
    match withExtension p.op p.dest p.src1 w with
    | .error e => .error ⟨e, p.index, p.raw⟩
    | .ok i => .ok (some i, none)
  | none =>
    match decodeFirst m w with
    | .error e => .error ⟨e, k, w⟩
    | .ok (.whole i) => .ok (some i, none)
    | .ok (.extended op dest src1) => .ok (none, some ⟨op, dest, src1, k, w⟩)

/-- The streaming decoder over the words from index `k` on, from a given extension state. A partial instruction still
pending at the end is a TruncatedExtension at its own word (R116). -/
def streamFrom (m : OpcodeMap) : Option PartialInstr → Nat → List Word →
    Except DecodeError (List Instr × Option PartialInstr)
  | none, _, [] => .ok ([], none)
  | some p, _, [] => .error ⟨.truncatedExtension, p.index, p.raw⟩
  | ext, k, w :: rest =>
    match feedWord m ext k w with
    | .error e => .error e
    | .ok (out, ext') => (streamFrom m ext' (k + 1) rest).map (fun r => (out.toList ++ r.1, r.2))

/-! ## Encoding -/

/-- Bits 7..4 of the first word (R98): src2 in formats R, M and B, the literal in format I, 0 in format X. -/
def Form.f74 : Form → BitVec 4
  | .r _ _ s2 => s2
  | .i _ _ v => v.setWidth 4
  | .x _ _ _ => 0#4
  | .m _ _ s2 => s2
  | .b _ _ s2 _ => s2

/-- Bits 3..0 of the first word (R98): 1 in format X, the offset in format B, else 0. -/
def Form.f30 : Form → BitVec 4
  | .r _ _ _ => 0#4
  | .i _ _ _ => 0#4
  | .x _ _ _ => 1#4
  | .m _ _ _ => 0#4
  | .b _ _ _ o => o.setWidth 4

/-- Operand slot 0, the word's dest field (R13). -/
def Form.dest : Form → RegIdx
  | .r d _ _ => d
  | .i d _ _ => d
  | .x d _ _ => d
  | .m d _ _ => d
  | .b d _ _ _ => d

/-- Operand slot 1, the word's src1 field (R13). -/
def Form.src1 : Form → RegIdx
  | .r _ a _ => a
  | .i _ a _ => a
  | .x _ a _ => a
  | .m _ a _ => a
  | .b _ a _ _ => a

/-- The first word from its fields (R98); bits 21..16 are 0. -/
def packWord (byte : Byte) (mode : BitVec 2) (dest src1 f74 f30 : BitVec 4) : Word :=
  (byte.setWidth 32 <<< 24) ||| (mode.setWidth 32 <<< 22) ||| (dest.setWidth 32 <<< 12) |||
  (src1.setWidth 32 <<< 8) ||| (f74.setWidth 32 <<< 4) ||| f30.setWidth 32

/-- The words of an instruction (R98): the first word, and after it in format X the extension word. -/
def encode (m : OpcodeMap) (i : Instr) : List Word :=
  packWord (m.byte i.opcode) i.form.mode.bits i.form.dest i.form.src1 i.form.f74 i.form.f30 ::
  match i.form with
  | .x _ _ v => [v]
  | .r _ _ _ | .i _ _ _ | .m _ _ _ | .b _ _ _ _ => []

/-- The words of a program, one instruction after the other (R80, R110). -/
def encodeProgram (m : OpcodeMap) (prog : List Instr) : List Word := prog.flatMap (encode m)

/-! ## The assembly notation -/

/-- One line of the assembly notation of R96. `long` says that the literal is written `#!n`; the offset of a line is the
4-bit literal it writes. The notation is the spec's own (92 D23); no pseudo-instruction exists (R97). -/
inductive AsmLine where
  | setReg (d b : RegIdx)
  | setLit (d : RegIdx) (n : Word) (long : Bool)
  | setInd (d b : RegIdx)
  | setOff (d b : RegIdx) (f : BitVec 4)
  | subReg (d a b : RegIdx)
  | subLit (d a : RegIdx) (n : Word) (long : Bool)
  | subInd (d a b : RegIdx)
  | subOff (d a b : RegIdx) (f : BitVec 4)
  | mulReg (d a b : RegIdx)
  | mulLit (d a : RegIdx) (n : Word) (long : Bool)
  | mulInd (d a b : RegIdx)
  | mulOff (d a b : RegIdx) (f : BitVec 4)
  | sdLit (s : RegIdx) (n : Word) (long : Bool)
  | sdInd (s b : RegIdx)
  | sdOff (s b : RegIdx) (f : BitVec 4)
  | cmpReg (a b : RegIdx)
  | jmpReg (b : RegIdx)
  | jmpLit (n : Word) (long : Bool)
  | ifnReg (b : RegIdx)
  | ifnLit (n : Word) (long : Bool)
  | alone (op : Opcode)
  deriving DecidableEq, Repr

/-- Format I for a literal 0 .. 15 written `#n`, format X for a larger one or one written `#!n` (R96). -/
def Form.literal (dest src1 : RegIdx) (n : Word) (long : Bool) : Form :=
  if long || !fits4 n then .x dest src1 n else .i dest src1 n

/-- The instruction a line stands for, with the fields the line does not name filled as the table of R96 says. A
mnemonic alone is HLT or a reserved one; the other seven need operands, and give none. -/
def AsmLine.assemble : AsmLine → Option Instr
  | .setReg d b => some (.setR d b b)
  | .setLit d n long => Instr.ofForm .set (.literal d 0 n long)
  | .setInd d b => some (.setM d 0 b)
  | .setOff d b f => some (.setB d 0 b (f.setWidth 32))
  | .subReg d a b => some (.subR d a b)
  | .subLit d a n long => Instr.ofForm .sub (.literal d a n long)
  | .subInd d a b => some (.subM d a b)
  | .subOff d a b f => some (.subB d a b (f.setWidth 32))
  | .mulReg d a b => some (.mulR d a b)
  | .mulLit d a n long => Instr.ofForm .mul (.literal d a n long)
  | .mulInd d a b => some (.mulM d a b)
  | .mulOff d a b f => some (.mulB d a b (f.setWidth 32))
  | .sdLit r n long => Instr.ofForm .sd (.literal r r n long)
  | .sdInd r b => some (.sdM r r b)
  | .sdOff r b f => some (.sdB r r b (f.setWidth 32))
  | .cmpReg a b => some (.cmpR b a b)
  | .jmpReg b => some (.jmpR b b b)
  | .jmpLit n long => Instr.ofForm .jmp (.literal 0 0 n long)
  | .ifnReg b => some (.ifnR b b b)
  | .ifnLit n long => Instr.ofForm .ifn (.literal 0 0 n long)
  | .alone op =>
    match op with
    | .set | .sub | .mul | .sd | .cmp | .jmp | .ifn => none
    | op => Instr.ofForm op (.r 0 0 0)

/-! ## Word indices -/

/-- The number of extended instructions in a list (R120). -/
def extendedCount (prog : List Instr) : Nat := prog.countP Instr.extended

/-- `k_i`: the word index that decoded instruction `i` came from (R120). -/
def wordIndex (prog : List Instr) (i : Nat) : Nat := i + extendedCount (prog.take i)

/-! ## The program file -/

/-- A word from four file bytes, the first the most significant (R82). -/
def wordOfBytes (b0 b1 b2 b3 : Byte) : Word :=
  (b0.setWidth 32 <<< 24) ||| (b1.setWidth 32 <<< 16) ||| (b2.setWidth 32 <<< 8) ||| b3.setWidth 32

/-- The raw words of a program file (R82): bytes grouped by four, big-endian; a trailing partial word is dropped, as
the source says of the reference loader (notes/assumptions/15.md). -/
def wordsOfFile : List Byte → List Word
  | b0 :: b1 :: b2 :: b3 :: rest => wordOfBytes b0 b1 b2 b3 :: wordsOfFile rest
  | _ => []

/-- The Decoder on the bytes of a program file (R82, R111). -/
def decodeFile (m : OpcodeMap) (bytes : List Byte) : Except DecodeError (List Instr) := decode m (wordsOfFile bytes)

/-! ## The host's question -/

/-- The instruction the decoder reads from the bits `w` of one row of the opcode table: the first word is bits 31..0,
the second word bits 63..32, and the bits above `nbits` are 0. -/
def decodeTableWord (nbits w : Nat) : Option Instr :=
  (decodeOne opc (BitVec.ofNat 32 (w % 2 ^ nbits)) (BitVec.ofNat 32 (w % 2 ^ nbits / 2 ^ 32))).toOption

end Sys2Proof
end

