-- ==== Sys2Proof/Machine/ResetValues.lean ====
section
/-!
DEFINITION. The one reset value the spec leaves open: MEM_FILL, the byte every location of data memory holds after
reset (spec/10_state.md R42). `State.reset` takes it from here.
-/

namespace Sys2Proof.Machine

/-- The byte `State.reset` fills memory with. DESIGN CHOICE (notes/assumptions/4.md): the spec gives no value and takes
any (R42, 93 U8); 0xAA is the number spec/95_test_vectors.md uses where a number helps. The fill is a field of every
State, and no statement rests on this value. -/
def resetFill : Byte := 0xAA#8

end Sys2Proof.Machine
end

