-- ==== Sys2Proof/Machine/State.lean ====
section
/-!
DEFINITION. The state of the dbv_rs core, all of spec/10_state.md R20: the register file (general registers, pc, sp and
the three flags), data memory, the decoded instruction store, the run status, the jump mark, the step count and limit,
the decoder's extension state. Then the reasons a host transaction can be undefined, the refusals, construction
(spec/70_reset_and_hazards.md R260, R261) and reset.
-/

namespace Sys2Proof.Machine

/-- The four kinds of runtime error (spec/60_exceptions.md R230, R231). An error is recorded in the run status; it is
not an outcome of the step (notes/assumptions/7.md). -/
inductive RuntimeError where
  /-- An access of `width` bytes at `addr` with `addr + width > MEM_CAPACITY` (R52). The address is the unwrapped
  integer (R125). -/
  | outOfBoundsMemoryAccess (addr width : Nat)
  /-- A register-file access with an index outside 0 .. 15 (R23). No instruction can raise it (R127). -/
  | invalidRegisterIndex (idx : Nat)
  /-- A fetch with pc >= N; it records the pc value (R212). -/
  | programCounterOverrun (pc : Word)
  /-- A reserved opcode is executed (R205). -/
  | unimplementedOpcode (op : Opcode)
  deriving DecidableEq, Repr

/-- The run status (R37, R210). `fault` holds the error kind with its info and the failing instruction index. -/
inductive RunStatus where
  | idle
  | running
  | halted
  | fault (error : RuntimeError) (index : Word)
  | stepLimitExceeded
  deriving DecidableEq, Repr

/-- Why a call of the host is turned away: the spec leaves it undefined, or gives the host no move in a run. No
instruction and no step raises any of these: the runtime errors the spec describes are next states (R236). -/
inductive Fault where
  /-- `load` called while status = Running (R222). Raised by `hostLoad`; safe: the model stops where the spec defines
  nothing. -/
  | loadWhileRunning
  /-- `new` called while status = Running: the host has no move during a run (R71, 92 D30). Raised by `hostNew`; safe. -/
  | newWhileRunning
  /-- A program of 2^32 decoded instructions or more (R8 `N`). Raised by `hostLoad`; safe. -/
  | programTooLong
  /-- `new` with a capacity above 2^32 (R8 `MEM_CAPACITY`). Raised by `hostNew`; safe. -/
  | capacityTooLarge
  /-- `run` on a machine that no program has been loaded into (R224). Raised by `hostStart`; safe. -/
  | runWithoutProgram
  /-- `run` called while a run is going on (R71, R224). Raised by `hostStart`; safe. -/
  | runWhileRunning
  /-- `dump` called while status = Running (R226). Raised by `hostDump`; safe. -/
  | dumpWhileRunning
  deriving DecidableEq, Repr

/-- Why the model gives an instruction no meaning. -/
inductive Refusal where
  /-- An instruction whose arm of `exec` has no meaning yet, by its mnemonic; raised by `exec` only, safe. Every arm has
  its meaning, so nothing raises it. -/
  | notModelled (mnemonic : String)
  deriving DecidableEq, Repr

/-- Data memory (spec/20_memory.md R50). `capacity` is MEM_CAPACITY and `fill` MEM_FILL, both fixed at construction;
`cells` lists the bytes that differ from the fill, by strictly rising address. -/
structure Memory where
  capacity : Nat
  fill : Byte
  cells : List Host.Cell
  deriving DecidableEq, Repr

/-- The canonical form: addresses strictly rising, each below the capacity, no entry equal to what an unlisted address
reads as; and the capacity within its constraint (R8). -/
abbrev Memory.wf (m : Memory) : Prop :=
  m.cells.Pairwise (fun x y => x.1 < y.1) ∧ (∀ c ∈ m.cells, c.1 < m.capacity ∧ c.2 ≠ m.fill) ∧
    m.capacity ≤ Config.maxCapacity

/-- The complete state of the core (R20). -/
structure State where
  /-- `x[0] .. x[15]` (R21). -/
  regs : Vector Word 16
  /-- The program counter, an index into the decoded instruction store (R24, R25). -/
  pc : Word
  /-- The stack pointer, which no instruction reads or writes (R27). -/
  sp : Word
  /-- The compare flag (R28). -/
  cmp : Byte
  /-- The arithmetic flag, inert (R30). -/
  arith : Byte
  /-- The interrupt flag, inert (R30). -/
  intr : Byte
  /-- Data memory (R34, R50). -/
  mem : Memory
  /-- What the last successful load stored, or none if there was none (R33, R43, R224). -/
  program : Option (List Instr)
  /-- The run status (R37). -/
  status : RunStatus
  /-- The jump-taken mark of the current instruction (R38). -/
  jumped : Bool
  /-- The instructions executed in this run (R20, R212). -/
  steps : Nat
  /-- STEP_LIMIT, absent or a number (R228). -/
  stepLimit : Option Nat
  /-- The decoder's extension state, not pending outside a load (R39). -/
  ext : Option PartialInstr
  deriving DecidableEq, Repr

/-- The decoded instruction store DIS: what the last successful load stored, empty if there was none (R43). -/
def State.dis (s : State) : List Instr := s.program.getD []

/-- The machine as construction leaves it (R223, R260, R261): everything zeroed, memory of `capacity` bytes all holding
`fill`, status Idle. The decoded program is not reset state and stays (R43, 92 D30). -/
def State.construct (capacity : Nat) (fill : Byte) (limit : Option Nat) (program : Option (List Instr)) : State where
  regs := Vector.replicate 16 0#32
  pc := 0#32
  sp := 0#32
  cmp := 0#8
  arith := 0#8
  intr := 0#8
  mem := { capacity := capacity, fill := fill, cells := [] }
  program := program
  status := .idle
  jumped := false
  steps := 0
  stepLimit := limit
  ext := none

/-- The machine right after reset with the reference parameters and no program loaded (R261). -/
def State.reset : State := State.construct Config.memCapacity resetFill Config.stepLimit none

end Sys2Proof.Machine
end

