-- ==== Sys2Proof/Machine/Ops.lean ====
section
/-!
DEFINITION. The named operations over registers and memory: the register file's accessors (spec/10_state.md R21 to R28),
the memory primitives and the eight accessors of the Memory interface (spec/20_memory.md R52 to R57), raising a runtime
error (spec/60_exceptions.md R236), and the one shape every instruction's meaning has: resolve a value, then do the one
write or raise (spec/40_decoder.md R126).
-/

namespace Sys2Proof.Machine

/-! ## Registers -/

/-- `x[r]` (R21). -/
def State.reg (s : State) (r : RegIdx) : Word := s.regs[r.toNat]'r.isLt

/-- `x[r] <- v`: all 32 bits are replaced (R21). No register is hard-wired. -/
def State.setReg (s : State) (r : RegIdx) (v : Word) : State := { s with regs := s.regs.set r.toNat v r.isLt }

/-- `get(reg)` of the register-file interface: an index outside 0 .. 15 fails (R23). -/
def State.getRegister (s : State) (idx : Nat) : Except RuntimeError Word :=
  if h : idx < 16 then .ok s.regs[idx] else .error (.invalidRegisterIndex idx)

/-- `set(reg, value)` of the register-file interface: an index outside 0 .. 15 fails (R23). -/
def State.setRegister (s : State) (idx : Nat) (v : Word) : Except RuntimeError State :=
  if h : idx < 16 then .ok { s with regs := s.regs.set idx v h } else .error (.invalidRegisterIndex idx)

/-- `set_pc(v)`, a plain accessor: any value is legal to hold (R26). -/
def State.setPc (s : State) (v : Word) : State := { s with pc := v }

/-- `set_sp(v)`, a plain accessor that no instruction calls (R27). -/
def State.setSp (s : State) (v : Word) : State := { s with sp := v }

/-- `set_cmp_flag(v)`: the byte is stored as given, with no validation (R28, 93 U19). -/
def State.setCmp (s : State) (v : Byte) : State := { s with cmp := v }

/-! ## Bytes of memory -/

/-- The value listed for address `a`, if one is. -/
def lookupCell (a : Nat) : List Host.Cell → Option Byte
  | [] => none
  | (c, v) :: rest => if c = a then some v else lookupCell a rest

/-- The list with `v` at address `a`, addresses rising. -/
def insertCell (a : Nat) (v : Byte) : List Host.Cell → List Host.Cell
  | [] => [(a, v)]
  | (c, w) :: rest =>
    if a < c then (a, v) :: (c, w) :: rest
    else if a = c then (a, v) :: rest
    else (c, w) :: insertCell a v rest

/-- The list with nothing at address `a`. -/
def eraseCell (a : Nat) (cells : List Host.Cell) : List Host.Cell := cells.filter (fun c => c.1 != a)

/-- `Mem[a]`: the byte last written there, or MEM_FILL (R65). -/
def Memory.byte (m : Memory) (a : Nat) : Byte := (lookupCell a m.cells).getD m.fill

/-- `Mem[a] <- v`, keeping the canonical form: writing the fill unlists the address. -/
def Memory.setByte (m : Memory) (a : Nat) (v : Byte) : Memory :=
  { m with cells := if v = m.fill then eraseCell a m.cells else insertCell a v m.cells }

/-! ## The primitives -/

/-- The bounds rule: an access of `n` bytes at `a` is in bounds exactly when `a + n <= MEM_CAPACITY`, the sum taken as
an integer (R52). -/
def Memory.inBounds (m : Memory) (a n : Nat) : Bool := a + n ≤ m.capacity

/-- The `n` bytes from `a` on as one little-endian number: the byte at the lowest address is the least significant
(R53). -/
def Memory.readLE (m : Memory) (a : Nat) : Nat → Nat
  | 0 => 0
  | n + 1 => (m.byte a).toNat + 256 * m.readLE (a + 1) n

/-- The memory with the low `8n` bits of `v` in the `n` bytes from `a` on, least significant first (R54). -/
def Memory.writeLE (m : Memory) (a : Nat) : Nat → Nat → Memory
  | 0, _ => m
  | n + 1, v => (m.setByte a (BitVec.ofNat 8 v)).writeLE (a + 1) n (v / 256)

/-- `MemRead(a, n)` (R53). The value is below 2^(8n), so for the widths 1, 2 and 4 it fits the 32-bit result. -/
def Memory.read (m : Memory) (a n : Nat) : Except RuntimeError Word :=
  if m.inBounds a n then .ok (BitVec.ofNat 32 (m.readLE a n)) else .error (.outOfBoundsMemoryAccess a n)

/-- `MemWrite(a, n, v)` (R54). Out of bounds it writes no byte (R52). -/
def Memory.write (m : Memory) (a n : Nat) (v : Word) : Except RuntimeError Memory :=
  if m.inBounds a n then .ok (m.writeLE a n v.toNat) else .error (.outOfBoundsMemoryAccess a n)

/-! ## The accessors of the Memory interface -/

/-- `sinj_16(v) = v | (v[15] << 16)`: one extra bit, not a sign extension (R57). -/
def sinj16 (v : Word) : Word := v ||| ((v &&& 0x8000#32) <<< 1)

/-- `sinj_8(v) = v | (v[7] << 8)` (R57). -/
def sinj8 (v : Word) : Word := v ||| ((v &&& 0x80#32) <<< 1)

/-- `read32` (R55). -/
def Memory.read32 (m : Memory) (a : Nat) : Except RuntimeError Word := m.read a 4

/-- `read16`, zero-extended (R55). -/
def Memory.read16 (m : Memory) (a : Nat) : Except RuntimeError Word := m.read a 2

/-- `read8`, zero-extended (R55). -/
def Memory.read8 (m : Memory) (a : Nat) : Except RuntimeError Word := m.read a 1

/-- `read16_signed`, with the one-bit sign injection (R57). -/
def Memory.read16Signed (m : Memory) (a : Nat) : Except RuntimeError Word := (m.read a 2).map sinj16

/-- `read8_signed`, with the one-bit sign injection (R57). -/
def Memory.read8Signed (m : Memory) (a : Nat) : Except RuntimeError Word := (m.read a 1).map sinj8

/-- `write32` (R56). -/
def Memory.write32 (m : Memory) (a : Nat) (v : Word) : Except RuntimeError Memory := m.write a 4 v

/-- `write16`: the low 16 bits (R56). -/
def Memory.write16 (m : Memory) (a : Nat) (v : Word) : Except RuntimeError Memory := m.write a 2 v

/-- `write8`: the low 8 bits (R56). -/
def Memory.write8 (m : Memory) (a : Nat) (v : Word) : Except RuntimeError Memory := m.write a 1 v

/-! ## Errors and completion -/

/-- `raise E(info)` (R236): status becomes Fault(E, info, index = pc), and nothing else of the state changes. -/
def State.raise (s : State) (e : RuntimeError) : State := { s with status := .fault e s.pc }

/-- The shape of every meaning (R126): with the value resolved, the one write `k`; where resolution raised, the raise
and no write. -/
def State.commit {α : Type} (s : State) (r : Except RuntimeError α) (k : α → State) :
    Host.Outcome State Fault Refusal :=
  match r with
  | .ok v => .next (k v)
  | .error e => .next (s.raise e)

/-- The data memory replaced, as a store leaves it. -/
def State.setMem (s : State) (m : Memory) : State := { s with mem := m }

/-- A taken jump to instruction index `index`: pc is written and the jump marked (R165, R213). -/
def State.jumpTo (s : State) (index : Word) : State := { s with pc := index, jumped := true }

/-- `status <- Halted` (R172). -/
def State.halt (s : State) : State := { s with status := .halted }

end Sys2Proof.Machine
end

