-- ==== Sys2Proof/Machine/Operands.lean ====
section
/-!
DEFINITION. Addressing-mode resolution at execute time (spec/40_decoder.md section 6): `Src`, the value of the source
operand, one definition for each of the four modes (R123); `EA`, the effective address of a store, one for each of the
three modes SD admits (R124); and the jump target's index (spec/43_compare_and_control.md R166).
-/

namespace Sys2Proof.Machine

/-- `Src` in Register mode: `x[ops[2]]` (R123). -/
def srcRegister (src2 : RegIdx) (s : State) : Except RuntimeError Word := .ok (s.reg src2)

/-- `Src` in Immediate mode: the inline literal or the extension word itself (R123). -/
def srcImmediate (value : Word) (_s : State) : Except RuntimeError Word := .ok value

/-- `EA` in Immediate mode: the value is the address (R124). -/
def eaImmediate (value : Word) : Nat := value.toNat

/-- `EA` in RegisterIndirect mode: `x[ops[2]]` (R124). -/
def eaIndirect (src2 : RegIdx) (s : State) : Nat := (s.reg src2).toNat

/-- `EA` in BaseOffset mode: the sum of the base register and the offset as an integer, never wrapped (R124, R125). -/
def eaBaseOffset (src2 : RegIdx) (offset : Word) (s : State) : Nat := (s.reg src2).toNat + offset.toNat

/-- `Src` in RegisterIndirect mode: `MemRead(x[ops[2]], 4)` (R123). -/
def srcIndirect (src2 : RegIdx) (s : State) : Except RuntimeError Word := s.mem.read32 (eaIndirect src2 s)

/-- `Src` in BaseOffset mode: `MemRead(x[ops[2]] + ops[3], 4)` (R123). -/
def srcBaseOffset (src2 : RegIdx) (offset : Word) (s : State) : Except RuntimeError Word :=
  s.mem.read32 (eaBaseOffset src2 offset s)

/-- `t div 4`: the instruction index a jump target names; its two low bits are dropped (R166). -/
def targetIndex (t : Word) : Word := t >>> 2

end Sys2Proof.Machine
end

