-- ==== Sys2Proof/Machine/Arithmetic.lean ====
section
/-!
DEFINITION. The arithmetic instructions (spec/42_arithmetic.md): SUB (R150) and MUL (R152) in their five formats. The
first operand is always the register src1 names, the second is resolved by mode as SET's source is. Results wrap modulo
2^32 and no flag is written (R154).
-/

namespace Sys2Proof.Machine

/-- SUB with its second operand resolved: `x[dest] <- x[src1] -32 b`, or the error the resolution raised. -/
def subFrom (dest src1 : RegIdx) (src : Except RuntimeError Word) (s : State) : Host.Outcome State Fault Refusal :=
  s.commit src (fun b => s.setReg dest (sub32 (s.reg src1) b))

/-- MUL with its second operand resolved: `x[dest] <- x[src1] *32 b`, or the error the resolution raised. -/
def mulFrom (dest src1 : RegIdx) (src : Except RuntimeError Word) (s : State) : Host.Outcome State Fault Refusal :=
  s.commit src (fun b => s.setReg dest (mul32 (s.reg src1) b))

/-- SUB, Register mode, format R (R150). -/
def execSubR (dest src1 src2 : RegIdx) (s : State) : Host.Outcome State Fault Refusal :=
  subFrom dest src1 (srcRegister src2 s) s

/-- SUB, Immediate mode, inline literal, format I (R150). -/
def execSubI (dest src1 : RegIdx) (value : Word) (s : State) : Host.Outcome State Fault Refusal :=
  subFrom dest src1 (srcImmediate value s) s

/-- SUB, Immediate mode, extension word, format X (R150). -/
def execSubX (dest src1 : RegIdx) (value : Word) (s : State) : Host.Outcome State Fault Refusal :=
  subFrom dest src1 (srcImmediate value s) s

/-- SUB, RegisterIndirect mode, format M (R150). -/
def execSubM (dest src1 src2 : RegIdx) (s : State) : Host.Outcome State Fault Refusal :=
  subFrom dest src1 (srcIndirect src2 s) s

/-- SUB, BaseOffset mode, format B (R150). -/
def execSubB (dest src1 src2 : RegIdx) (offset : Word) (s : State) : Host.Outcome State Fault Refusal :=
  subFrom dest src1 (srcBaseOffset src2 offset s) s

/-- MUL, Register mode, format R (R152). -/
def execMulR (dest src1 src2 : RegIdx) (s : State) : Host.Outcome State Fault Refusal :=
  mulFrom dest src1 (srcRegister src2 s) s

/-- MUL, Immediate mode, inline literal, format I (R152). -/
def execMulI (dest src1 : RegIdx) (value : Word) (s : State) : Host.Outcome State Fault Refusal :=
  mulFrom dest src1 (srcImmediate value s) s

/-- MUL, Immediate mode, extension word, format X (R152). -/
def execMulX (dest src1 : RegIdx) (value : Word) (s : State) : Host.Outcome State Fault Refusal :=
  mulFrom dest src1 (srcImmediate value s) s

/-- MUL, RegisterIndirect mode, format M (R152). -/
def execMulM (dest src1 src2 : RegIdx) (s : State) : Host.Outcome State Fault Refusal :=
  mulFrom dest src1 (srcIndirect src2 s) s

/-- MUL, BaseOffset mode, format B (R152). -/
def execMulB (dest src1 src2 : RegIdx) (offset : Word) (s : State) : Host.Outcome State Fault Refusal :=
  mulFrom dest src1 (srcBaseOffset src2 offset s) s

end Sys2Proof.Machine
end

