-- ==== Sys2Proof/Machine/Flags.lean ====
section
/-!
DEFINITION. The compare flag: its six defined codes (spec/10_state.md R28), what CMP records in it
(spec/43_compare_and_control.md R160, R161) and the condition IFN tests (R168). CMP is the only instruction that writes
a flag; the arithmetic and interrupt flags are written by nothing (R30).
-/

namespace Sys2Proof.Machine

/-- The six defined codes of the compare flag (R28). -/
inductive CmpCode where
  | eq
  | ne
  | gt
  | lt
  | ge
  | le
  deriving DecidableEq, Repr

/-- The byte of each code: EQ=0, NE=1, GT=2, LT=3, GE=4, LE=5 (R28). -/
def CmpCode.byte : CmpCode → Byte
  | .eq => 0#8
  | .ne => 1#8
  | .gt => 2#8
  | .lt => 3#8
  | .ge => 4#8
  | .le => 5#8

/-- The code CMP records: EQ when the two values are equal, else NE, and never another (R160, R161). -/
def compareCode (a b : Word) : CmpCode := if a = b then .eq else .ne

/-- The condition of IFN: the whole compare byte equals EQ, that is 0 (R168, R169). -/
def flagIsEq (cmp : Byte) : Bool := cmp == CmpCode.eq.byte

end Sys2Proof.Machine
end

