-- ==== Sys2Proof/Machine/CompareControl.lean ====
section
/-!
DEFINITION. The compare and control-transfer instructions (spec/43_compare_and_control.md): CMP (R160), JMP (R165) and
IFN (R168) in their three formats, HLT (R172). The sequencer adds 1 to pc afterwards unless the jump mark is set or the
status has left Running (spec/45_sequencer.md R213).
-/

namespace Sys2Proof.Machine

/-- CMP, Register mode, format R: the whole compare byte becomes EQ or NE (R160, R161). -/
def execCmpR (_dest src1 src2 : RegIdx) (s : State) : Host.Outcome State Fault Refusal :=
  .next (s.setCmp (compareCode (s.reg src1) (s.reg src2)).byte)

/-- JMP with its target resolved: pc <- t div 4 and the jump mark set (R165, R166). -/
def jumpVia (src : Except RuntimeError Word) (s : State) : Host.Outcome State Fault Refusal :=
  s.commit src (fun t => s.jumpTo (targetIndex t))

/-- IFN with its target resolved: the jump of JMP when the compare flag is EQ, else nothing (R168). -/
def jumpIfEq (src : Except RuntimeError Word) (s : State) : Host.Outcome State Fault Refusal :=
  if flagIsEq s.cmp then jumpVia src s else .next s

/-- JMP, Register mode, format R (R165). -/
def execJmpR (_dest _src1 src2 : RegIdx) (s : State) : Host.Outcome State Fault Refusal :=
  jumpVia (srcRegister src2 s) s

/-- JMP, Immediate mode, inline literal, format I (R165). -/
def execJmpI (_dest _src1 : RegIdx) (value : Word) (s : State) : Host.Outcome State Fault Refusal :=
  jumpVia (srcImmediate value s) s

/-- JMP, Immediate mode, extension word, format X (R165). -/
def execJmpX (_dest _src1 : RegIdx) (value : Word) (s : State) : Host.Outcome State Fault Refusal :=
  jumpVia (srcImmediate value s) s

/-- IFN, Register mode, format R (R168). -/
def execIfnR (_dest _src1 src2 : RegIdx) (s : State) : Host.Outcome State Fault Refusal :=
  jumpIfEq (srcRegister src2 s) s

/-- IFN, Immediate mode, inline literal, format I (R168). -/
def execIfnI (_dest _src1 : RegIdx) (value : Word) (s : State) : Host.Outcome State Fault Refusal :=
  jumpIfEq (srcImmediate value s) s

/-- IFN, Immediate mode, extension word, format X (R168). -/
def execIfnX (_dest _src1 : RegIdx) (value : Word) (s : State) : Host.Outcome State Fault Refusal :=
  jumpIfEq (srcImmediate value s) s

/-- HLT, any format, every field ignored: status becomes Halted and nothing else changes (R172). -/
def execHlt (_form : Form) (s : State) : Host.Outcome State Fault Refusal :=
  .next s.halt

end Sys2Proof.Machine
end

