-- ==== Sys2Proof/Machine/DataMovement.lean ====
section
/-!
DEFINITION. The data movement instructions (spec/41_data_movement.md): SET in its five formats (R140) and SD in its four
(R145). Each meaning is one line over the shared operation of its mnemonic; the field an instruction does not use
(R144, R148) is an argument with an underscore.
-/

namespace Sys2Proof.Machine

/-- SET with its source resolved: `x[dest] <- v`, or the error the resolution raised (R140). -/
def setFrom (dest : RegIdx) (src : Except RuntimeError Word) (s : State) : Host.Outcome State Fault Refusal :=
  s.commit src (s.setReg dest)

/-- SD with its address resolved: the four bytes of `x[reg]` at `addr`, least significant first, or the bounds error and
no byte written (R145, R52). -/
def storeAt (addr : Nat) (reg : RegIdx) (s : State) : Host.Outcome State Fault Refusal :=
  s.commit (s.mem.write32 addr (s.reg reg)) s.setMem

/-- SET, Register mode, format R (R140). -/
def execSetR (dest _src1 src2 : RegIdx) (s : State) : Host.Outcome State Fault Refusal :=
  setFrom dest (srcRegister src2 s) s

/-- SET, Immediate mode, inline literal, format I (R140). -/
def execSetI (dest _src1 : RegIdx) (value : Word) (s : State) : Host.Outcome State Fault Refusal :=
  setFrom dest (srcImmediate value s) s

/-- SET, Immediate mode, extension word, format X (R140). -/
def execSetX (dest _src1 : RegIdx) (value : Word) (s : State) : Host.Outcome State Fault Refusal :=
  setFrom dest (srcImmediate value s) s

/-- SET, RegisterIndirect mode, format M (R140). -/
def execSetM (dest _src1 src2 : RegIdx) (s : State) : Host.Outcome State Fault Refusal :=
  setFrom dest (srcIndirect src2 s) s

/-- SET, BaseOffset mode, format B (R140). -/
def execSetB (dest _src1 src2 : RegIdx) (offset : Word) (s : State) : Host.Outcome State Fault Refusal :=
  setFrom dest (srcBaseOffset src2 offset s) s

/-- SD, Immediate mode, inline literal, format I: the register stored is the one the dest field names (R145). -/
def execSdI (dest _src1 : RegIdx) (value : Word) (s : State) : Host.Outcome State Fault Refusal :=
  storeAt (eaImmediate value) dest s

/-- SD, Immediate mode, extension word, format X: the register stored is the one the dest field names (R145). -/
def execSdX (dest _src1 : RegIdx) (value : Word) (s : State) : Host.Outcome State Fault Refusal :=
  storeAt (eaImmediate value) dest s

/-- SD, RegisterIndirect mode, format M: the register stored is the one the dest field names (R145). -/
def execSdM (dest _src1 src2 : RegIdx) (s : State) : Host.Outcome State Fault Refusal :=
  storeAt (eaIndirect src2 s) dest s

/-- SD, BaseOffset mode, format B: the register stored is the one the dest field names (R145). -/
def execSdB (dest _src1 src2 : RegIdx) (offset : Word) (s : State) : Host.Outcome State Fault Refusal :=
  storeAt (eaBaseOffset src2 offset s) dest s

end Sys2Proof.Machine
end

