-- ==== Sys2Proof/Machine/Reserved.lean ====
section
/-!
DEFINITION. The twenty-five reserved opcodes (spec/44_reserved_opcodes.md R180 to R204). Executing one, in any format and
with any operands, raises UnimplementedOpcode (R205): a next state whose status is the fault and in which nothing else
changed.
-/

namespace Sys2Proof.Machine

/-- The common behaviour of the reserved opcodes: the error is raised, no operand is resolved (R205). -/
def raiseUnimplemented (op : Opcode) (s : State) : Host.Outcome State Fault Refusal :=
  .next (s.raise (.unimplementedOpcode op))

/-- PSH, reserved (R180). -/
def execPsh (_form : Form) (s : State) : Host.Outcome State Fault Refusal :=
  raiseUnimplemented .psh s

/-- POP, reserved (R181). -/
def execPop (_form : Form) (s : State) : Host.Outcome State Fault Refusal :=
  raiseUnimplemented .pop s

/-- MOV, reserved (R182). -/
def execMov (_form : Form) (s : State) : Host.Outcome State Fault Refusal :=
  raiseUnimplemented .mov s

/-- ADD, reserved (R183). -/
def execAdd (_form : Form) (s : State) : Host.Outcome State Fault Refusal :=
  raiseUnimplemented .add s

/-- DIV, reserved (R184). -/
def execDiv (_form : Form) (s : State) : Host.Outcome State Fault Refusal :=
  raiseUnimplemented .div s

/-- AND, reserved (R185). -/
def execAndOp (_form : Form) (s : State) : Host.Outcome State Fault Refusal :=
  raiseUnimplemented .andOp s

/-- OR, reserved (R186). -/
def execOrOp (_form : Form) (s : State) : Host.Outcome State Fault Refusal :=
  raiseUnimplemented .orOp s

/-- XOR, reserved (R187). -/
def execXor (_form : Form) (s : State) : Host.Outcome State Fault Refusal :=
  raiseUnimplemented .xor s

/-- NOT, reserved (R188). -/
def execNotOp (_form : Form) (s : State) : Host.Outcome State Fault Refusal :=
  raiseUnimplemented .notOp s

/-- SL, reserved (R189). -/
def execSl (_form : Form) (s : State) : Host.Outcome State Fault Refusal :=
  raiseUnimplemented .sl s

/-- SR, reserved (R190). -/
def execSr (_form : Form) (s : State) : Host.Outcome State Fault Refusal :=
  raiseUnimplemented .sr s

/-- LD, reserved (R191). -/
def execLd (_form : Form) (s : State) : Host.Outcome State Fault Refusal :=
  raiseUnimplemented .ld s

/-- SD16, reserved (R192). -/
def execSd16 (_form : Form) (s : State) : Host.Outcome State Fault Refusal :=
  raiseUnimplemented .sd16 s

/-- LD16, reserved (R193). -/
def execLd16 (_form : Form) (s : State) : Host.Outcome State Fault Refusal :=
  raiseUnimplemented .ld16 s

/-- SD8, reserved (R194). -/
def execSd8 (_form : Form) (s : State) : Host.Outcome State Fault Refusal :=
  raiseUnimplemented .sd8 s

/-- LD8, reserved (R195). -/
def execLd8 (_form : Form) (s : State) : Host.Outcome State Fault Refusal :=
  raiseUnimplemented .ld8 s

/-- LD16S, reserved (R196). -/
def execLd16s (_form : Form) (s : State) : Host.Outcome State Fault Refusal :=
  raiseUnimplemented .ld16s s

/-- LD8S, reserved (R197). -/
def execLd8s (_form : Form) (s : State) : Host.Outcome State Fault Refusal :=
  raiseUnimplemented .ld8s s

/-- IF, reserved (R198). -/
def execIfOp (_form : Form) (s : State) : Host.Outcome State Fault Refusal :=
  raiseUnimplemented .ifOp s

/-- IFG, reserved (R199). -/
def execIfg (_form : Form) (s : State) : Host.Outcome State Fault Refusal :=
  raiseUnimplemented .ifg s

/-- IFL, reserved (R200). -/
def execIfl (_form : Form) (s : State) : Host.Outcome State Fault Refusal :=
  raiseUnimplemented .ifl s

/-- IFE, reserved (R201). -/
def execIfe (_form : Form) (s : State) : Host.Outcome State Fault Refusal :=
  raiseUnimplemented .ife s

/-- IFNE, reserved (R202). -/
def execIfne (_form : Form) (s : State) : Host.Outcome State Fault Refusal :=
  raiseUnimplemented .ifne s

/-- CALL, reserved (R203). -/
def execCall (_form : Form) (s : State) : Host.Outcome State Fault Refusal :=
  raiseUnimplemented .call s

/-- RET, reserved (R204). -/
def execRet (_form : Form) (s : State) : Host.Outcome State Fault Refusal :=
  raiseUnimplemented .ret s

end Sys2Proof.Machine
end

