-- ==== Sys2Proof/Machine/Dispatch.lean ====
section
/-! DEFINITION. Dispatch (spec/45_sequencer.md R214): one arm per constructor of Instr, each one call of its meaning. -/

namespace Sys2Proof.Machine

def exec (i : Instr) (s : State) : Host.Outcome State Fault Refusal :=
  match i with
  | .setR dest src1 src2 => Sys2Proof.Machine.execSetR dest src1 src2 s
  | .setI dest src1 value => Sys2Proof.Machine.execSetI dest src1 value s
  | .setX dest src1 value => Sys2Proof.Machine.execSetX dest src1 value s
  | .setM dest src1 src2 => Sys2Proof.Machine.execSetM dest src1 src2 s
  | .setB dest src1 src2 offset => Sys2Proof.Machine.execSetB dest src1 src2 offset s
  | .subR dest src1 src2 => Sys2Proof.Machine.execSubR dest src1 src2 s
  | .subI dest src1 value => Sys2Proof.Machine.execSubI dest src1 value s
  | .subX dest src1 value => Sys2Proof.Machine.execSubX dest src1 value s
  | .subM dest src1 src2 => Sys2Proof.Machine.execSubM dest src1 src2 s
  | .subB dest src1 src2 offset => Sys2Proof.Machine.execSubB dest src1 src2 offset s
  | .mulR dest src1 src2 => Sys2Proof.Machine.execMulR dest src1 src2 s
  | .mulI dest src1 value => Sys2Proof.Machine.execMulI dest src1 value s
  | .mulX dest src1 value => Sys2Proof.Machine.execMulX dest src1 value s
  | .mulM dest src1 src2 => Sys2Proof.Machine.execMulM dest src1 src2 s
  | .mulB dest src1 src2 offset => Sys2Proof.Machine.execMulB dest src1 src2 offset s
  | .sdI dest src1 value => Sys2Proof.Machine.execSdI dest src1 value s
  | .sdX dest src1 value => Sys2Proof.Machine.execSdX dest src1 value s
  | .sdM dest src1 src2 => Sys2Proof.Machine.execSdM dest src1 src2 s
  | .sdB dest src1 src2 offset => Sys2Proof.Machine.execSdB dest src1 src2 offset s
  | .cmpR dest src1 src2 => Sys2Proof.Machine.execCmpR dest src1 src2 s
  | .jmpR dest src1 src2 => Sys2Proof.Machine.execJmpR dest src1 src2 s
  | .jmpI dest src1 value => Sys2Proof.Machine.execJmpI dest src1 value s
  | .jmpX dest src1 value => Sys2Proof.Machine.execJmpX dest src1 value s
  | .ifnR dest src1 src2 => Sys2Proof.Machine.execIfnR dest src1 src2 s
  | .ifnI dest src1 value => Sys2Proof.Machine.execIfnI dest src1 value s
  | .ifnX dest src1 value => Sys2Proof.Machine.execIfnX dest src1 value s
  | .hlt form => Sys2Proof.Machine.execHlt form s
  | .psh form => Sys2Proof.Machine.execPsh form s
  | .pop form => Sys2Proof.Machine.execPop form s
  | .mov form => Sys2Proof.Machine.execMov form s
  | .add form => Sys2Proof.Machine.execAdd form s
  | .div form => Sys2Proof.Machine.execDiv form s
  | .andOp form => Sys2Proof.Machine.execAndOp form s
  | .orOp form => Sys2Proof.Machine.execOrOp form s
  | .xor form => Sys2Proof.Machine.execXor form s
  | .notOp form => Sys2Proof.Machine.execNotOp form s
  | .sl form => Sys2Proof.Machine.execSl form s
  | .sr form => Sys2Proof.Machine.execSr form s
  | .ld form => Sys2Proof.Machine.execLd form s
  | .sd16 form => Sys2Proof.Machine.execSd16 form s
  | .ld16 form => Sys2Proof.Machine.execLd16 form s
  | .sd8 form => Sys2Proof.Machine.execSd8 form s
  | .ld8 form => Sys2Proof.Machine.execLd8 form s
  | .ld16s form => Sys2Proof.Machine.execLd16s form s
  | .ld8s form => Sys2Proof.Machine.execLd8s form s
  | .ifOp form => Sys2Proof.Machine.execIfOp form s
  | .ifg form => Sys2Proof.Machine.execIfg form s
  | .ifl form => Sys2Proof.Machine.execIfl form s
  | .ife form => Sys2Proof.Machine.execIfe form s
  | .ifne form => Sys2Proof.Machine.execIfne form s
  | .call form => Sys2Proof.Machine.execCall form s
  | .ret form => Sys2Proof.Machine.execRet form s

end Sys2Proof.Machine
end

