-- ==== Sys2Proof/Machine/Sequencer.lean ====
section
/-!
DEFINITION. The sequencer (spec/45_sequencer.md R212, R213, R215): the step-limit check, the fetch, the jump mark
cleared at the fetch, and after the instruction the advance of pc and of the step count. `stepWith` is one step over a
given execute function; Step.lean gives it `exec`.
-/

namespace Sys2Proof.Machine

/-- STEP_LIMIT is present and `steps >= STEP_LIMIT` (R212, R228). -/
def State.limitReached (s : State) : Bool :=
  match s.stepLimit with
  | none => false
  | some limit => limit ≤ s.steps

/-- `DIS[pc]`, or none when `pc >= N` (R212, R215). -/
def State.fetch (s : State) : Option Instr := s.dis[s.pc.toNat]?

/-- The state an instruction executes in: the jump mark is cleared at every fetch (R212). -/
def State.beginInstr (s : State) : State := { s with jumped := false }

/-- After an instruction that left status Running: pc + 1 unless it jumped, and one more step (R212, R213). -/
def State.advance (s : State) : State :=
  { s with pc := if s.jumped then s.pc else s.pc + 1#32, steps := s.steps + 1 }

/-- The end of a step: a halted or faulted machine stops as it is, a running one advances (R212). -/
def State.retire (s : State) : State := if s.status = .running then s.advance else s

/-- The step ended by STEP_LIMIT (R228). -/
def State.exceedLimit (s : State) : State := { s with status := .stepLimitExceeded }

/-- One step (R212), `ex` executing the fetched instruction. While status is not Running nothing moves: a stop is final
and an Idle machine waits for the host's `run` (R210, notes/assumptions/8.md). -/
def stepWith (ex : Instr → State → Host.Outcome State Fault Refusal) (s : State) : Host.Outcome State Fault Refusal :=
  if s.status = .running then
    if s.limitReached then .next s.exceedLimit
    else
      match s.fetch with
      | none => .next (s.raise (.programCounterOverrun s.pc))
      | some i =>
        match ex i s.beginInstr with
        | .next t => .next t.retire
        | .fault f => .fault f
        | .refused r => .refused r
  else .next s

/-- The state with instruction `i` at `DIS[pc]` and the run going on, so that the next step fetches `i`: the rest of the
program stays, and where pc is past its end the gap is filled with HLT. The run has no step limit
(notes/assumptions/9.md). -/
def State.placeInstr (s : State) (i : Instr) : State :=
  { s with
    program := some (s.dis.take s.pc.toNat ++ List.replicate (s.pc.toNat - s.dis.length) (.hlt (.r 0 0 0)) ++
      i :: s.dis.drop (s.pc.toNat + 1))
    status := .running
    stepLimit := none }

end Sys2Proof.Machine
end

