-- ==== Sys2Proof/Machine/Step.lean ====
section
/-! DEFINITION. The step of the core (spec/45_sequencer.md R212), and the host's way to place one instruction. -/

namespace Sys2Proof.Machine

/-- One step of the sequencer, executing with `exec` (R212, R214). -/
def step (s : State) : Host.Outcome State Fault Refusal := stepWith exec s

/-- `s` with the instruction of one table word loaded where the next step fetches it, running; `s` itself where the
decoder rejects the word. -/
def State.withFetchWord (s : State) (nbits w : Nat) : State :=
  match decodeTableWord nbits w with
  | some i => s.placeInstr i
  | none => s

end Sys2Proof.Machine
end

