-- ==== Sys2Proof/Machine/HostInterface.lean ====
section
/-!
DEFINITION. The transactions by which the host drives the core (spec/45_sequencer.md R222 to R228): load, new, run and
dump. A call the spec does not define is a named fault. None of them is a step: during a run the host has no move
(spec/20_memory.md R71).
-/

namespace Sys2Proof.Machine

/-- What `load` gives back: the machine, and the decode error if the load was rejected (R222). -/
structure LoadReply where
  state : State
  error : Option DecodeError
  deriving DecidableEq, Repr

/-- The decoder's extension state at the start of a load: not pending (R20, R39). -/
def State.beginLoad (s : State) : State := { s with ext := none }

/-- The decoded program stored, with the extension state the decoder ended in (R222). -/
def State.storeProgram (s : State) (prog : List Instr) (ext : Option PartialInstr) : State :=
  { s with program := some prog, ext := ext }

/-- `load(words)` (R222): the words go through the decoder; on success DIS is the result, on a decode error the machine
is as it was (R233). Undefined while Running, and for a program of 2^32 instructions or more (R8). -/
def hostLoad (m : OpcodeMap) (ws : List Word) (s : State) : Except Fault LoadReply :=
  if s.status = .running then .error .loadWhileRunning
  else
    match streamFrom m s.beginLoad.ext 0 ws with
    | .error e => .ok ⟨s.beginLoad, some e⟩
    | .ok (prog, ext) =>
      if prog.length < Config.maxProgram then .ok ⟨s.beginLoad.storeProgram prog ext, none⟩
      else .error .programTooLong

/-- `new(memory_capacity)` (R223, R260): construction, for a capacity, a fill and a step limit; the loaded program
stays (R43). A machine whose run goes on is not constructed anew: the host does not touch it (R71, 92 D30, 93 V15). R223
itself puts no condition on the call; that it is a named fault then, and above the largest capacity, is a DESIGN CHOICE
(notes/assumptions/22.md). -/
def hostNew (capacity : Nat) (fill : Byte) (limit : Option Nat) (s : State) : Except Fault State :=
  if s.status = .running then .error .newWhileRunning
  else if capacity ≤ Config.maxCapacity then .ok (State.construct capacity fill limit s.program)
  else .error .capacityTooLarge

/-- The host's call of `run` (R210, R224): an Idle machine with a program becomes Running; a stopped machine stays as it
is (92 D25). -/
def hostStart (s : State) : Except Fault State :=
  match s.status with
  | .idle => if s.program.isSome then .ok { s with status := .running } else .error .runWithoutProgram
  | .running => .error .runWhileRunning
  | .halted => .ok s
  | .fault _ _ => .ok s
  | .stepLimitExceeded => .ok s

/-- At most `fuel` steps, ending where status leaves Running (R217, R218). -/
def runSteps : Nat → State → Host.Outcome State Fault Refusal
  | 0, s => .next s
  | fuel + 1, s =>
    if s.status = .running then
      match step s with
      | .next t => runSteps fuel t
      | .fault f => .fault f
      | .refused r => .refused r
    else .next s

/-- `run` under fuel (R224, R218): the state the run has reached, stopped or still Running. -/
def hostRun (fuel : Nat) (s : State) : Host.Outcome State Fault Refusal :=
  match hostStart s with
  | .ok t => runSteps fuel t
  | .error f => .fault f

/-- `RunResult` (R225). -/
inductive RunResult where
  | normalHalt
  | runtimeError (error : RuntimeError) (index : Word)
  | stepLimitExceeded
  deriving DecidableEq, Repr

/-- The result of a run that has stopped, none before that (R225). -/
def State.runResult (s : State) : Option RunResult :=
  match s.status with
  | .idle => none
  | .running => none
  | .halted => some .normalHalt
  | .fault e index => some (.runtimeError e index)
  | .stepLimitExceeded => some .stepLimitExceeded

/-- What `dump` shows (R226). -/
structure Dump where
  regs : Vector Word 16
  cmp : Byte
  arith : Byte
  intr : Byte
  pc : Word
  sp : Word
  window : Option Word
  deriving DecidableEq, Repr

/-- `dump` (R226): state read and nothing written; the window is the word at DUMP_ADDR, absent when there is no
DUMP_ADDR or the word is out of range. Undefined while Running. -/
def hostDump (dumpAddr : Option Nat) (s : State) : Except Fault Dump :=
  if s.status = .running then .error .dumpWhileRunning
  else
    .ok { regs := s.regs, cmp := s.cmp, arith := s.arith, intr := s.intr, pc := s.pc, sp := s.sp,
          window := dumpAddr.bind (fun a => (s.mem.read32 a).toOption) }

end Sys2Proof.Machine
end

