-- ==== Sys2Proof/Safety.lean ====
section
/-!
DEFINITION. What counts as a safe run and the terms the statements use: the invariant of the machine's data, what every
stop rests on (spec/60_exceptions.md R231), the one memory access of an instruction, and the parts of the state an
instruction leaves alone.
-/

namespace Sys2Proof

/-- Whether an opcode has semantics: the first eight do, the other twenty-five are reserved (R89). -/
def Opcode.implemented : Opcode → Bool
  | .set | .sub | .mul | .sd | .cmp | .jmp | .ifn | .hlt => true
  | .psh | .pop | .mov | .add | .div | .andOp | .orOp | .xor | .notOp | .sl | .sr | .ld | .sd16 | .ld16 | .sd8 | .ld8
  | .ld16s | .ld8s | .ifOp | .ifg | .ifl | .ife | .ifne | .call | .ret => false

namespace Machine

/-! ## Safe runs -/

/-- A machine that has gone wrong: its status is a Fault, whatever its registers hold (R237). -/
def State.goneWrong (s : State) : Bool :=
  match s.status with
  | .fault _ _ => true
  | .idle | .running | .halted | .stepLimitExceeded => false

/-- A run is safe up to a number of steps when no state within them has gone wrong. -/
def State.safeFor (s : State) (fuel : Nat) : Prop :=
  ∀ k ≤ fuel, ∀ t, runSteps k s = .next t → t.goneWrong = false

/-! ## The memory access of an instruction -/

/-- The address a source operand is read at, in the two memory modes (R123). -/
def Form.loadAddress (f : Form) (s : State) : Option Nat :=
  match f with
  | .r _ _ _ | .i _ _ _ | .x _ _ _ => none
  | .m _ _ src2 => some (eaIndirect src2 s)
  | .b _ _ src2 offset => some (eaBaseOffset src2 offset s)

/-- The address a store goes to, in the three modes SD admits (R124). -/
def Form.storeAddress (f : Form) (s : State) : Option Nat :=
  match f with
  | .r _ _ _ => none
  | .i _ _ value | .x _ _ value => some (eaImmediate value)
  | .m _ _ src2 => some (eaIndirect src2 s)
  | .b _ _ src2 offset => some (eaBaseOffset src2 offset s)

/-- The address of the at most one memory access of an instruction (R126, R64): 4 bytes read by SET, SUB and MUL in
the memory modes, 4 bytes written by SD. -/
def Instr.address (i : Instr) (s : State) : Option Nat :=
  if i.opcode = .sd then Form.storeAddress i.form s
  else if i.opcode = .set ∨ i.opcode = .sub ∨ i.opcode = .mul then Form.loadAddress i.form s
  else none

/-! ## Invariants -/

/-- The data invariant: what holds of the machine's state at every point of every run. -/
structure State.Inv (s : State) : Prop where
  /-- The memory keeps its canonical form. -/
  memWf : s.mem.wf
  /-- sp, arith and intr read 0 for ever (R27, R30). -/
  inert : s.sp = 0 ∧ s.arith = 0 ∧ s.intr = 0
  /-- The compare flag is EQ or NE (R29). -/
  cmpCode : s.cmp = CmpCode.eq.byte ∨ s.cmp = CmpCode.ne.byte
  /-- N < 2^32 (R8). -/
  progLength : s.dis.length < Config.maxProgram
  /-- Every decoded instruction is well formed (R87). -/
  progWf : ∀ i ∈ s.dis, i.wf = true
  /-- An Idle machine has executed nothing. -/
  idleFresh : s.status = .idle → s.pc = 0 ∧ s.steps = 0
  /-- pc never passes N but by a jump, and a jump writes at most 0x3FFFFFFF (R25). -/
  pcBound : s.status = .running → s.pc.toNat ≤ s.dis.length ∨ s.pc.toNat ≤ 0x3FFFFFFF
  /-- No extension word is awaited outside a load (R39). -/
  notPending : s.ext = none
  /-- At most STEP_LIMIT instructions have been executed (R228). -/
  withinLimit : ∀ limit, s.stepLimit = some limit → s.steps ≤ limit

/-- What each stop rests on, in the stopped state itself (R217, R231): a halted machine stands at a HLT; a fault's index
is pc, and its cause is there to see; a machine stopped by the limit has reached it. -/
def State.StopExplained (s : State) : Prop :=
  match s.status with
  | .idle | .running => True
  | .halted => ∃ form, s.fetch = some (.hlt form)
  | .stepLimitExceeded => s.limitReached = true
  | .fault (.outOfBoundsMemoryAccess addr width) index =>
    index = s.pc ∧ width = 4 ∧ s.mem.capacity < addr + 4 ∧ ∃ i, s.fetch = some i ∧ Instr.address i s = some addr
  | .fault (.invalidRegisterIndex _) _ => False
  | .fault (.programCounterOverrun pc) index => index = s.pc ∧ pc = s.pc ∧ s.dis.length ≤ s.pc.toNat
  | .fault (.unimplementedOpcode op) index =>
    index = s.pc ∧ op.implemented = false ∧ ∃ i, s.fetch = some i ∧ i.opcode = op

/-! ## What stays -/

/-- Every general register is as before. -/
def KeepsRegs (s t : State) : Prop := ∀ r, t.reg r = s.reg r

/-- Every general register but `dest` is as before. -/
def KeepsRegsBut (dest : RegIdx) (s t : State) : Prop := ∀ r, r ≠ dest → t.reg r = s.reg r

/-- Every byte of memory reads as before, and the capacity, the fill and the listed cells are as before. -/
def KeepsMem (s t : State) : Prop := (∀ a, t.mem.byte a = s.mem.byte a) ∧ t.mem = s.mem

/-- Every byte of memory outside the `n` bytes from `addr` on reads as before, and the capacity and the fill are as
before. -/
def KeepsMemBut (addr n : Nat) (s t : State) : Prop :=
  (∀ a, a < addr ∨ addr + n ≤ a → t.mem.byte a = s.mem.byte a) ∧
    t.mem.capacity = s.mem.capacity ∧ t.mem.fill = s.mem.fill

/-- The arithmetic and the interrupt flag and the stack pointer are as before. -/
def KeepsInert (s t : State) : Prop := t.sp = s.sp ∧ t.arith = s.arith ∧ t.intr = s.intr

/-- pc, the jump mark and the run status are as before. -/
def KeepsControl (s t : State) : Prop := t.pc = s.pc ∧ t.jumped = s.jumped ∧ t.status = s.status

/-- The decoded program, the step count and limit and the decoder's extension state are as before. -/
def KeepsHost (s t : State) : Prop :=
  t.program = s.program ∧ t.steps = s.steps ∧ t.stepLimit = s.stepLimit ∧ t.ext = s.ext

/-- Instruction `i` completes in `s`, writes register `dest` with a value of which `value` holds, and leaves all else
of the state as it is. The sequencer moves pc afterwards. -/
def WritesRegister (i : Instr) (s : State) (dest : RegIdx) (value : Word → Prop) : Prop :=
  ∃ t, exec i s = .next t ∧ value (t.reg dest) ∧ KeepsRegsBut dest s t ∧ KeepsMem s t ∧ t.cmp = s.cmp ∧
    KeepsInert s t ∧ KeepsControl s t ∧ KeepsHost s t

/-- Instruction `i` completes in `s`, puts `v` into the four bytes from `addr` on, least significant first, and leaves
all else of the state as it is. -/
def StoresWord (i : Instr) (s : State) (addr : Nat) (v : Word) : Prop :=
  ∃ t, exec i s = .next t ∧ (∀ k < 4, t.mem.byte (addr + k) = v.extractLsb' (8 * k) 8) ∧ KeepsMemBut addr 4 s t ∧
    KeepsRegs s t ∧ t.cmp = s.cmp ∧ KeepsInert s t ∧ KeepsControl s t ∧ KeepsHost s t

/-- Instruction `i` raises error `e` in `s`: the next state has the status Fault(e, index = pc) and is otherwise the
same (R236). -/
def Raises (i : Instr) (s : State) (e : RuntimeError) : Prop :=
  exec i s = .next { s with status := .fault e s.pc }

/-- Instruction `i` completes in `s` as a jump: pc is `index`, the mark is set, and all else is as before. -/
def JumpsTo (i : Instr) (s : State) (index : Nat) : Prop :=
  ∃ t, exec i s = .next t ∧ t.pc.toNat = index ∧ t.jumped = true ∧ t.status = s.status ∧ KeepsRegs s t ∧
    KeepsMem s t ∧ t.cmp = s.cmp ∧ KeepsInert s t ∧ KeepsHost s t

/-- The four bytes of memory at `addr` as one little-endian number, written out (R53). -/
def wordAt (m : Memory) (addr : Nat) : Nat :=
  (m.byte addr).toNat + 2 ^ 8 * (m.byte (addr + 1)).toNat + 2 ^ 16 * (m.byte (addr + 2)).toNat +
    2 ^ 24 * (m.byte (addr + 3)).toNat

end Machine

end Sys2Proof
end

