-- ==== Sys2Proof/Certificates/Slice0/Obligations.lean ====
section
/-!
DEFINITION. The statements for the provers, from the numbered rules of spec/: encoding and decoding, memory, the
register file and reset, the instructions, the sequencer and the host interface, and the rules about the whole machine.
Where a statement rests on a decision of the spec (92_eei_decisions.md) or on a log entry, its docstring says so.
-/

open Sys2Proof Sys2Proof.Machine

/-! ## Encoding and decoding -/

/-- R83: the three masks and shifts cut the word into bits 31..24, bits 23..22 and bits 19..0; the shifted mode mask
covers four bits and still gives only 0 .. 3. -/
def Obligations.MaskedFieldsAreBitSlices : Prop :=
  ∀ w : Word,
    opcodeField w = w.extractLsb' 24 8 ∧ (opcodeField w).setWidth 32 = (w &&& 0xFF000000#32) >>> 24 ∧
    modeField w = w.extractLsb' 22 2 ∧ (modeField w).setWidth 32 = (w &&& 0x00F00000#32) >>> 22 ∧
    arguments w = (w.extractLsb' 0 20).setWidth 32

/-- R113: the operand list by mode, slot by slot, from the bits of the word and, in the extended form, from the word
after it. The mode is the one the mode field selects in the numbering of R85 (92 D2). -/
def Obligations.DecodedOperandsFollowMode : Prop :=
  ∀ (m : OpcodeMap) (w next : Word) (i : Instr), decodeOne m w next = .ok i →
    m.byte i.opcode = w.extractLsb' 24 8 ∧
    i.mode.bits = w.extractLsb' 22 2 ∧
    i.operands =
      [(w.extractLsb' 12 4).setWidth 32, (w.extractLsb' 8 4).setWidth 32] ++
      match i.mode with
      | .register => [(w.extractLsb' 4 4).setWidth 32]
      | .immediate => [if w.getLsbD 0 then next else (w.extractLsb' 4 4).setWidth 32]
      | .registerIndirect => [(w.extractLsb' 4 4).setWidth 32]
      | .baseOffset => [(w.extractLsb' 4 4).setWidth 32, (w.extractLsb' 0 4).setWidth 32]

/-- R91: a recognized opcode decodes exactly in the modes it admits, whatever the other bits; an unadmitted mode is
InvalidMode, an unassigned opcode byte InvalidOpcode (R92). Rests on the spec's decisions 92 D4, D7, D8, D9, D10. -/
def Obligations.DecodeAdmitsExactlyTheTable : Prop :=
  ∀ (m : OpcodeMap) (w next : Word),
    (∀ op, m.byte op = w.extractLsb' 24 8 →
      (op.admits (AddrMode.ofBits (w.extractLsb' 22 2)) = true → ∃ i, decodeOne m w next = .ok i ∧ i.opcode = op) ∧
      (op.admits (AddrMode.ofBits (w.extractLsb' 22 2)) = false →
        decodeOne m w next = .error (.invalidMode (w.extractLsb' 22 2)))) ∧
    ((∀ op, m.byte op ≠ w.extractLsb' 24 8) → decodeOne m w next = .error (.invalidOpcode (w.extractLsb' 24 8)))

/-- R84: the bits no field reads do not matter: 21..16 in every mode, 3..0 in modes 0 and 2, 3..1 in Immediate mode,
and 7..4 in its extended form. Rests on the spec's decision 92 D3. -/
def Obligations.IgnoredBitsDoNotMatter : Prop :=
  ∀ (m : OpcodeMap) (w next : Word),
    decodeOne m w next = decodeOne m (w &&& 0xFFC0FFFF#32) next ∧
    (w.extractLsb' 22 2 = 0#2 ∨ w.extractLsb' 22 2 = 2#2 →
      decodeOne m w next = decodeOne m (w &&& 0xFFFFFFF0#32) next) ∧
    (w.extractLsb' 22 2 = 1#2 → decodeOne m w next = decodeOne m (w &&& 0xFFFFFFF1#32) next) ∧
    (w.extractLsb' 22 2 = 1#2 → w.getLsbD 0 = true → decodeOne m w next = decodeOne m (w &&& 0xFFFFFF0F#32) next)

/-- Decode and encode agree, for every opcode map and every program of well-formed instructions: the words of the
program (R98) decode (R111) to the program, with every operand. -/
def Obligations.DecodeOfEncodedProgram : Prop :=
  ∀ (m : OpcodeMap) (prog : List Instr), (∀ i ∈ prog, i.wf = true) → decode m (encodeProgram m prog) = .ok prog

/-- R39, R114: a streaming decoder that holds one pending partial instruction gives what the algorithm of R111 gives,
on every word sequence, errors with their word index and raw word included, and ends with nothing pending. -/
def Obligations.StreamingDecoderAgrees : Prop :=
  ∀ (m : OpcodeMap) (ws : List Word), streamFrom m none 0 ws = (decode m ws).map (fun prog => (prog, none))

/-- R120: the program is shorter than the word sequence by the number of its extended instructions, and instruction `i`
is the one whose first word is at `i` plus the number of extended instructions before it. -/
def Obligations.DecodedProgramIndexing : Prop :=
  ∀ (m : OpcodeMap) (ws : List Word) (prog : List Instr), decode m ws = .ok prog →
    ws.length = prog.length + extendedCount prog ∧
    ∀ (i : Nat) (h : i < prog.length), ∃ w, ws[wordIndex prog i]? = some w ∧
      decodeOne m w (ws.getD (wordIndex prog i + 1) 0) = .ok prog[i]

/-- R117, R92: a rejected load names the first offending word: the words before it decode, the raw word is the one at
the index, and the kind is what that word shows. Rests on the spec's decision 92 D20. -/
def Obligations.DecodeErrorNamesFirstWord : Prop :=
  ∀ (m : OpcodeMap) (ws : List Word) (e : DecodeError), decode m ws = .error e →
    ws[e.index]? = some e.raw ∧ (∃ prog, decode m (ws.take e.index) = .ok prog) ∧
    match e.kind with
    | .invalidOpcode byte => byte = e.raw.extractLsb' 24 8 ∧ ∀ op, m.byte op ≠ byte
    | .invalidMode value => value = e.raw.extractLsb' 22 2 ∧
        ∃ op, m.byte op = e.raw.extractLsb' 24 8 ∧ op.admits (AddrMode.ofBits value) = false
    | .truncatedExtension => e.index + 1 = ws.length ∧ e.raw.extractLsb' 22 2 = 1#2 ∧ e.raw.getLsbD 0 = true

/-- R87, R91: every instruction of a decoded program is well formed, its inline literal or offset in 0 .. 15, and its
opcode admits its mode. Rests on the spec's decision 92 D11. -/
def Obligations.DecodedProgramsAreWellFormed : Prop :=
  ∀ (m : OpcodeMap) (ws : List Word) (prog : List Instr), decode m ws = .ok prog →
    ∀ i ∈ prog, i.wf = true ∧ i.opcode.admits i.mode = true

/-- Words written out from the encodings of R86 and R90 decode to what R128 and the table of section 2.2 of
spec/95_test_vectors.md give. The opcode bytes are the spec's reference assignment (92 D1). -/
def Obligations.SampleWordsDecode : Prop :=
  decodeOne opc 0x02002010#32 0 = .ok (.subR 2 0 1) ∧
  decodeOne opc 0x01400050#32 0 = .ok (.setI 0 0 5) ∧
  decodeOne opc 0x01400001#32 0xFF#32 = .ok (.setX 0 0 0xFF) ∧
  decodeOne opc 0x01803040#32 0 = .ok (.setM 3 0 4) ∧
  decodeOne opc 0x04C55048#32 0 = .ok (.sdB 5 0 4 8) ∧
  decodeOne opc 0x0233F21F#32 0 = .ok (.subR 15 2 1) ∧
  decodeOne opc 0x12345678#32 0 = .ok (.sl (.r 5 6 7)) ∧
  decodeOne opc 0x00000000#32 0 = .error (.invalidOpcode 0) ∧
  decodeOne opc 0x04001020#32 0 = .error (.invalidMode 0)

/-- R82: file bytes are grouped by four, the first byte the most significant; fewer than four bytes make no word
(notes/assumptions/15.md). -/
def Obligations.FileBytesGroupBigEndian : Prop :=
  (∀ (b0 b1 b2 b3 : Byte) (rest : List Byte), ∃ w, wordsOfFile (b0 :: b1 :: b2 :: b3 :: rest) = w :: wordsOfFile rest ∧
    w.toNat = b0.toNat * 2 ^ 24 + b1.toNat * 2 ^ 16 + b2.toNat * 2 ^ 8 + b3.toNat) ∧
  ∀ bytes : List Byte, (wordsOfFile bytes).length = bytes.length / 4

/-! ## Memory -/

/-- R53: a read of 1, 2 or 4 bytes is in bounds exactly when the last byte is; then its value is the little-endian sum
of the bytes, else it raises with its address and width. -/
def Obligations.ReadIsLittleEndianSum : Prop :=
  ∀ (m : Memory) (a n : Nat), n = 1 ∨ n = 2 ∨ n = 4 →
    (a + n ≤ m.capacity → ∃ v, m.read a n = .ok v ∧
      v.toNat = ∑ k ∈ Finset.range n, (m.byte (a + k)).toNat * 2 ^ (8 * k)) ∧
    (m.capacity < a + n → m.read a n = .error (.outOfBoundsMemoryAccess a n))

/-- R54: a write of 1, 2 or 4 bytes puts bits 8k+7..8k of the value into byte `a + k` and changes no other byte; out of
bounds it raises with its address and width. -/
def Obligations.WriteChangesExactlyItsBytes : Prop :=
  ∀ (m : Memory) (a n : Nat) (v : Word), n = 1 ∨ n = 2 ∨ n = 4 →
    (a + n ≤ m.capacity → ∃ m', m.write a n v = .ok m' ∧
      (∀ k < n, m'.byte (a + k) = v.extractLsb' (8 * k) 8) ∧
      (∀ c, c < a ∨ a + n ≤ c → m'.byte c = m.byte c) ∧ m'.capacity = m.capacity ∧ m'.fill = m.fill) ∧
    (m.capacity < a + n → m.write a n v = .error (.outOfBoundsMemoryAccess a n))

/-- R58: what each width reads back after a write of the same width, and the signed read of 0x8000. -/
def Obligations.AccessorRoundTrips : Prop :=
  ∀ (m : Memory) (a : Nat) (v : Word),
    (a + 4 ≤ m.capacity → ∃ m', m.write32 a v = .ok m' ∧ m'.read32 a = .ok v) ∧
    (a + 2 ≤ m.capacity → ∃ m', m.write16 a v = .ok m' ∧ m'.read16 a = .ok (v &&& 0xFFFF#32)) ∧
    (a + 1 ≤ m.capacity → ∃ m', m.write8 a v = .ok m' ∧ m'.read8 a = .ok (v &&& 0xFF#32)) ∧
    (a + 2 ≤ m.capacity → ∃ m', m.write16 a 0x8000#32 = .ok m' ∧ m'.read16Signed a = .ok 0x18000#32)

/-- R60: after a word is written, a narrower read sees its low bytes first. -/
def Obligations.NarrowReadsSeeLowBytesFirst : Prop :=
  ∀ (m : Memory) (a : Nat) (v : Word), a + 4 ≤ m.capacity → ∃ m', m.write32 a v = .ok m' ∧
    (∀ k < 4, m'.read8 (a + k) = .ok ((v.extractLsb' (8 * k) 8).setWidth 32)) ∧
    (∀ k < 3, m'.read16 (a + k) = .ok ((v.extractLsb' (8 * k) 16).setWidth 32))

/-- R57: the signed reads set one extra bit, a copy of the value's top bit, and leave every higher bit 0; they raise
where the unsigned reads do. -/
def Obligations.SignedReadsInjectOneBit : Prop :=
  ∀ (m : Memory) (a : Nat),
    (a + 2 ≤ m.capacity → ∃ v r, m.read16 a = .ok v ∧ m.read16Signed a = .ok r ∧
      ∀ j < 32, r.getLsbD j = if j < 16 then v.getLsbD j else if j = 16 then v.getLsbD 15 else false) ∧
    (a + 1 ≤ m.capacity → ∃ v r, m.read8 a = .ok v ∧ m.read8Signed a = .ok r ∧
      ∀ j < 32, r.getLsbD j = if j < 8 then v.getLsbD j else if j = 8 then v.getLsbD 7 else false) ∧
    (m.capacity < a + 2 → m.read16Signed a = .error (.outOfBoundsMemoryAccess a 2)) ∧
    (m.capacity < a + 1 → m.read8Signed a = .error (.outOfBoundsMemoryAccess a 1))

/-- The canonical form makes equal memories equal data: two canonical memories of one capacity and one fill that read
the same at every address are the same. -/
def Obligations.CanonicalMemoriesWithEqualBytesAreEqual : Prop :=
  ∀ m m' : Memory, m.wf → m'.wf → m.capacity = m'.capacity → m.fill = m'.fill →
    (∀ a, m.byte a = m'.byte a) → m = m'

/-! ## The register file and reset -/

/-- R21: a register write replaces all 32 bits of its register and nothing else; a read gives the last value written,
or 0 after reset; no register is hard-wired; pc, sp and the flags are no register of the sixteen. R23 (its check): an
index outside 0 .. 15 fails, for get and for set. -/
def Obligations.RegisterFileReadsWhatWasWritten : Prop :=
  ∀ (s : State) (idx : Nat) (v : Word),
    (idx < 16 → ∃ t, s.setRegister idx v = .ok t ∧ t.getRegister idx = .ok v ∧
      (∀ j, j ≠ idx → t.getRegister j = s.getRegister j) ∧
      t = { s with regs := t.regs } ∧ State.reset.getRegister idx = .ok 0) ∧
    (16 ≤ idx → s.setRegister idx v = .error (.invalidRegisterIndex idx) ∧
      s.getRegister idx = .error (.invalidRegisterIndex idx))

/-- R41: reset zeroes the register file, pc, sp and the three flags, gives memory its capacity and the fill in
every byte, and leaves status Idle (the construction of R223, where it answers). It is stated for every capacity and
every fill (the fill's value is open, 92 D14) and, for the registers, of `State.reset`. -/
def Obligations.ResetZeroesTheRegisterFile : Prop :=
  (∀ (capacity : Nat) (fill : Byte) (limit : Option Nat) (s t : State), hostNew capacity fill limit s = .ok t →
    (∀ r, t.reg r = 0) ∧ t.pc = 0 ∧ t.sp = 0 ∧ t.cmp = 0 ∧ t.arith = 0 ∧ t.intr = 0 ∧
    (∀ a, t.mem.byte a = fill) ∧ t.mem.capacity = capacity ∧ t.status = .idle) ∧
  (∀ r, State.reset.reg r = 0) ∧ State.reset.pc = 0 ∧ State.reset.sp = 0 ∧ State.reset.cmp = 0 ∧
    State.reset.arith = 0 ∧ State.reset.intr = 0 ∧ State.reset.status = .idle

/-- R43, R228: reset counts no step, marks no jump and has no extension pending, and it keeps the loaded program: DIS is
not reset state (the spec's decision 92 D30). It answers for every machine that is not Running and every capacity within
its constraint (92 D13); that the call is a named fault for any other is the model's choice (notes/assumptions/22.md). -/
def Obligations.ConstructionKeepsTheLoadedProgram : Prop :=
  ∀ (capacity : Nat) (fill : Byte) (limit : Option Nat) (s : State),
    (s.status ≠ .running → capacity ≤ 2 ^ 32 → ∃ t, hostNew capacity fill limit s = .ok t ∧ t.program = s.program ∧ t.dis = s.dis ∧
      t.steps = 0 ∧ t.jumped = false ∧ t.ext = none ∧ t.stepLimit = limit ∧ t.mem.cells = []) ∧
    (s.status ≠ .running → 2 ^ 32 < capacity → hostNew capacity fill limit s = .error .capacityTooLarge) ∧
    (s.status = .running → hostNew capacity fill limit s = .error .newWhileRunning) ∧
    State.reset.dis = [] ∧ State.reset.steps = 0 ∧ State.reset.stepLimit = none

/-! ## Instructions -/

/-- R140: SET completes in every format and leaves in its destination the source register, the literal or extension
word, or the little-endian word at the register's address or at the unwrapped sum of base and offset; all else stays.
Rests on the spec's decision 92 D5 (src2 is the register copied) and D12. -/
def Obligations.SetWritesItsSource : Prop :=
  ∀ (d a b : RegIdx) (v o : Word) (s : State),
    WritesRegister (.setR d a b) s d (· = s.reg b) ∧
    WritesRegister (.setI d a v) s d (· = v) ∧
    WritesRegister (.setX d a v) s d (· = v) ∧
    ((s.reg b).toNat + 4 ≤ s.mem.capacity →
      WritesRegister (.setM d a b) s d (fun x => x.toNat = wordAt s.mem (s.reg b).toNat)) ∧
    ((s.reg b).toNat + o.toNat + 4 ≤ s.mem.capacity →
      WritesRegister (.setB d a b o) s d (fun x => x.toNat = wordAt s.mem ((s.reg b).toNat + o.toNat)))

/-- SUB (42_arithmetic.md) leaves `(x[src1] - b) mod 2^32` in its destination in every format, b resolved as SET's source is, and
all else stays: no flag is written. Where the word b is read from is out of bounds it raises and writes nothing. Rests on
the spec's decisions 92 D12 (the sum of base and offset does not wrap) and D18 (a fault keeps no write). -/
def Obligations.SubWritesTheWrappedDifference : Prop :=
  ∀ (d a b : RegIdx) (v o : Word) (s : State),
    WritesRegister (.subR d a b) s d (fun x => x.toNat = (2 ^ 32 + (s.reg a).toNat - (s.reg b).toNat) % 2 ^ 32) ∧
    WritesRegister (.subI d a v) s d (fun x => x.toNat = (2 ^ 32 + (s.reg a).toNat - v.toNat) % 2 ^ 32) ∧
    WritesRegister (.subX d a v) s d (fun x => x.toNat = (2 ^ 32 + (s.reg a).toNat - v.toNat) % 2 ^ 32) ∧
    ((s.reg b).toNat + 4 ≤ s.mem.capacity →
      WritesRegister (.subM d a b) s d (fun x =>
        x.toNat = (2 ^ 32 + (s.reg a).toNat - wordAt s.mem (s.reg b).toNat) % 2 ^ 32)) ∧
    (s.mem.capacity < (s.reg b).toNat + 4 →
      Raises (.subM d a b) s (.outOfBoundsMemoryAccess (s.reg b).toNat 4)) ∧
    ((s.reg b).toNat + o.toNat + 4 ≤ s.mem.capacity →
      WritesRegister (.subB d a b o) s d (fun x =>
        x.toNat = (2 ^ 32 + (s.reg a).toNat - wordAt s.mem ((s.reg b).toNat + o.toNat)) % 2 ^ 32)) ∧
    (s.mem.capacity < (s.reg b).toNat + o.toNat + 4 →
      Raises (.subB d a b o) s (.outOfBoundsMemoryAccess ((s.reg b).toNat + o.toNat) 4))

/-- MUL (42_arithmetic.md) leaves `(x[src1] * b) mod 2^32` in its destination in every format, b resolved as SET's source is, and
all else stays: no flag is written. Where the word b is read from is out of bounds it raises and writes nothing. Rests on
the spec's decisions 92 D12 (the sum of base and offset does not wrap) and D18 (a fault keeps no write). -/
def Obligations.MulWritesTheWrappedProduct : Prop :=
  ∀ (d a b : RegIdx) (v o : Word) (s : State),
    WritesRegister (.mulR d a b) s d (fun x => x.toNat = (s.reg a).toNat * (s.reg b).toNat % 2 ^ 32) ∧
    WritesRegister (.mulI d a v) s d (fun x => x.toNat = (s.reg a).toNat * v.toNat % 2 ^ 32) ∧
    WritesRegister (.mulX d a v) s d (fun x => x.toNat = (s.reg a).toNat * v.toNat % 2 ^ 32) ∧
    ((s.reg b).toNat + 4 ≤ s.mem.capacity →
      WritesRegister (.mulM d a b) s d (fun x =>
        x.toNat = (s.reg a).toNat * wordAt s.mem (s.reg b).toNat % 2 ^ 32)) ∧
    (s.mem.capacity < (s.reg b).toNat + 4 →
      Raises (.mulM d a b) s (.outOfBoundsMemoryAccess (s.reg b).toNat 4)) ∧
    ((s.reg b).toNat + o.toNat + 4 ≤ s.mem.capacity →
      WritesRegister (.mulB d a b o) s d (fun x =>
        x.toNat = (s.reg a).toNat * wordAt s.mem ((s.reg b).toNat + o.toNat) % 2 ^ 32)) ∧
    (s.mem.capacity < (s.reg b).toNat + o.toNat + 4 →
      Raises (.mulB d a b o) s (.outOfBoundsMemoryAccess ((s.reg b).toNat + o.toNat) 4))

/-- R145: SD completes in every format it has, in bounds, and stores the four bytes of the register its dest field
names at the address its mode gives, computed by `eaImmediate`, `eaIndirect` and `eaBaseOffset`; every other byte and
all else stays. Rests on the spec's decisions 92 D4 and D6. -/
def Obligations.SdStoresItsRegister : Prop :=
  ∀ (d a b : RegIdx) (v o : Word) (s : State),
    (eaImmediate v + 4 ≤ s.mem.capacity → StoresWord (.sdI d a v) s (eaImmediate v) (s.reg d)) ∧
    (eaImmediate v + 4 ≤ s.mem.capacity → StoresWord (.sdX d a v) s (eaImmediate v) (s.reg d)) ∧
    (eaIndirect b s + 4 ≤ s.mem.capacity → StoresWord (.sdM d a b) s (eaIndirect b s) (s.reg d)) ∧
    (eaBaseOffset b o s + 4 ≤ s.mem.capacity → StoresWord (.sdB d a b o) s (eaBaseOffset b o s) (s.reg d))

/-- R123, R124, R125: the address of each memory operand in words of the registers: the value itself, the register, or
the mathematical sum of base and offset, which may reach 2^32 and more. The last is the spec's decision 92 D12. -/
def Obligations.EffectiveAddressesDoNotWrap : Prop :=
  ∀ (b : RegIdx) (v o : Word) (s : State),
    eaImmediate v = v.toNat ∧ eaIndirect b s = (s.reg b).toNat ∧ eaBaseOffset b o s = (s.reg b).toNat + o.toNat ∧
    (∀ (d a : RegIdx), 2 ^ 32 ≤ (s.reg b).toNat + o.toNat → s.mem.capacity ≤ 2 ^ 32 →
      Raises (.setB d a b o) s (.outOfBoundsMemoryAccess ((s.reg b).toNat + o.toNat) 4) ∧
      Raises (.sdB d a b o) s (.outOfBoundsMemoryAccess ((s.reg b).toNat + o.toNat) 4))

/-- R52, R231, R236: every memory form traps out of bounds, with the unwrapped address and width 4; no register, byte,
flag or pc is written. One clause for each of the ten memory forms, through the address of its one access. Rests on the
spec's decision 92 D18. -/
def Obligations.MemoryFormsRaiseOutOfBounds : Prop :=
  ∀ (i : Instr) (s : State) (addr : Nat), Instr.address i s = some addr → s.mem.capacity < addr + 4 →
    Raises i s (.outOfBoundsMemoryAccess addr 4)

/-- R160, R161: CMP completes and records EQ (0) when the two source registers are equal, else NE (1), in the whole
byte; all else stays. Rests on the spec's decisions 92 D7 and D28. -/
def Obligations.CmpRecordsEqualOrNot : Prop :=
  ∀ (d a b : RegIdx) (s : State), ∃ t, exec (.cmpR d a b) s = .next t ∧
    t.cmp = (if (s.reg a).toNat = (s.reg b).toNat then 0#8 else 1#8) ∧
    KeepsRegs s t ∧ KeepsMem s t ∧ KeepsInert s t ∧ KeepsControl s t ∧ KeepsHost s t

/-- R165, R166: JMP completes in its three formats: pc is the floor of the target divided by 4, the jump is marked, and
all else stays. Rests on the spec's decisions 92 D8 and D16. -/
def Obligations.JmpGoesToTargetDivFour : Prop :=
  ∀ (d a b : RegIdx) (v : Word) (s : State),
    JumpsTo (.jmpR d a b) s ((s.reg b).toNat / 4) ∧ JumpsTo (.jmpI d a v) s (v.toNat / 4) ∧
    JumpsTo (.jmpX d a v) s (v.toNat / 4)

/-- R168, R169: IFN completes in its three formats: with the compare flag EQ (0) it is the jump of JMP, with any other
value of the byte it leaves the whole state as it is. Rests on the spec's decision 92 D8. -/
def Obligations.IfnJumpsExactlyOnEq : Prop :=
  ∀ (d a b : RegIdx) (v : Word) (s : State),
    (s.cmp = 0 → JumpsTo (.ifnR d a b) s ((s.reg b).toNat / 4) ∧ JumpsTo (.ifnI d a v) s (v.toNat / 4) ∧
      JumpsTo (.ifnX d a v) s (v.toNat / 4)) ∧
    (s.cmp ≠ 0 → exec (.ifnR d a b) s = .next s ∧ exec (.ifnI d a v) s = .next s ∧ exec (.ifnX d a v) s = .next s)

/-- R172: HLT completes in every format, whatever its fields: status is Halted and all else, pc included, stays. Rests
on the spec's decision 92 D9. -/
def Obligations.HltHaltsInPlace : Prop :=
  ∀ (form : Form) (s : State), exec (.hlt form) s = .next { s with status := .halted }

/-- R205, R180 to R204: each of the twenty-five reserved opcodes, in any format and with any operands, raises
UnimplementedOpcode with its own mnemonic; no register, flag, byte or pc is written. Rests on the spec's decision
92 D10. -/
def Obligations.ReservedOpcodesRaise : Prop :=
  ∀ (f : Form) (s : State),
    Raises (.psh f) s (.unimplementedOpcode .psh) ∧ Raises (.pop f) s (.unimplementedOpcode .pop) ∧
    Raises (.mov f) s (.unimplementedOpcode .mov) ∧ Raises (.add f) s (.unimplementedOpcode .add) ∧
    Raises (.div f) s (.unimplementedOpcode .div) ∧ Raises (.andOp f) s (.unimplementedOpcode .andOp) ∧
    Raises (.orOp f) s (.unimplementedOpcode .orOp) ∧ Raises (.xor f) s (.unimplementedOpcode .xor) ∧
    Raises (.notOp f) s (.unimplementedOpcode .notOp) ∧ Raises (.sl f) s (.unimplementedOpcode .sl) ∧
    Raises (.sr f) s (.unimplementedOpcode .sr) ∧ Raises (.ld f) s (.unimplementedOpcode .ld) ∧
    Raises (.sd16 f) s (.unimplementedOpcode .sd16) ∧ Raises (.ld16 f) s (.unimplementedOpcode .ld16) ∧
    Raises (.sd8 f) s (.unimplementedOpcode .sd8) ∧ Raises (.ld8 f) s (.unimplementedOpcode .ld8) ∧
    Raises (.ld16s f) s (.unimplementedOpcode .ld16s) ∧ Raises (.ld8s f) s (.unimplementedOpcode .ld8s) ∧
    Raises (.ifOp f) s (.unimplementedOpcode .ifOp) ∧ Raises (.ifg f) s (.unimplementedOpcode .ifg) ∧
    Raises (.ifl f) s (.unimplementedOpcode .ifl) ∧ Raises (.ife f) s (.unimplementedOpcode .ife) ∧
    Raises (.ifne f) s (.unimplementedOpcode .ifne) ∧ Raises (.call f) s (.unimplementedOpcode .call) ∧
    Raises (.ret f) s (.unimplementedOpcode .ret)

/-- R121, R141: an inline literal and an extension word of the same value mean the same: the operand lists are equal
and the two formats of each instruction have the same effect in every state. -/
def Obligations.InlineAndExtendedAgree : Prop :=
  ∀ (d a : RegIdx) (v : Word) (s : State),
    (Form.i d a v).operands = (Form.x d a v).operands ∧
    exec (.setI d a v) s = exec (.setX d a v) s ∧ exec (.subI d a v) s = exec (.subX d a v) s ∧
    exec (.mulI d a v) s = exec (.mulX d a v) s ∧ exec (.sdI d a v) s = exec (.sdX d a v) s ∧
    exec (.jmpI d a v) s = exec (.jmpX d a v) s ∧ exec (.ifnI d a v) s = exec (.ifnX d a v) s

/-- R144, R148, R163, R165: the fields an instruction does not use have no effect: src1 of SET and SD, dest of CMP, dest
and src1 of JMP and IFN. Rests on the spec's decisions 92 D5 to D8. -/
def Obligations.UnusedFieldsHaveNoEffect : Prop :=
  ∀ (d d' a a' b : RegIdx) (v o : Word) (s : State),
    exec (.setR d a b) s = exec (.setR d a' b) s ∧ exec (.setI d a v) s = exec (.setI d a' v) s ∧
    exec (.setX d a v) s = exec (.setX d a' v) s ∧ exec (.setM d a b) s = exec (.setM d a' b) s ∧
    exec (.setB d a b o) s = exec (.setB d a' b o) s ∧ exec (.sdI d a v) s = exec (.sdI d a' v) s ∧
    exec (.sdX d a v) s = exec (.sdX d a' v) s ∧ exec (.sdM d a b) s = exec (.sdM d a' b) s ∧
    exec (.sdB d a b o) s = exec (.sdB d a' b o) s ∧ exec (.cmpR d a b) s = exec (.cmpR d' a b) s ∧
    exec (.jmpR d a b) s = exec (.jmpR d' a' b) s ∧ exec (.jmpI d a v) s = exec (.jmpI d' a' v) s ∧
    exec (.jmpX d a v) s = exec (.jmpX d' a' v) s ∧ exec (.ifnR d a b) s = exec (.ifnR d' a' b) s ∧
    exec (.ifnI d a v) s = exec (.ifnI d' a' v) s ∧ exec (.ifnX d a v) s = exec (.ifnX d' a' v) s

/-! ## The sequencer and the host interface -/

/-- R212, R214: while Running, with the step limit not reached, a step executes the decoded instruction at pc in the
state with the jump mark cleared; then a machine that has stopped stays as the instruction left it, and a running one
counts the step and moves to pc + 1 unless the instruction jumped. The decoded instruction is the one the loaded words
decode to at that index. Rests on the spec's decisions 92 D9 (a halted step keeps pc), D17 (the jump mark decides the
advance) and D18 (a faulted step keeps pc). -/
def Obligations.StepRunsDecodedInstruction : Prop :=
  ∀ (s t : State) (i : Instr), s.status = .running → s.limitReached = false →
    ((∃ (m : OpcodeMap) (ws : List Word) (prog : List Instr), decode m ws = .ok prog ∧ s.program = some prog ∧
        prog[s.pc.toNat]? = some i) ∨ s.dis[s.pc.toNat]? = some i) →
    exec i { s with jumped := false } = .next t →
    (t.status = .running →
      step s = .next { t with pc := if t.jumped then t.pc else t.pc + 1, steps := t.steps + 1 }) ∧
    (t.status ≠ .running → step s = .next t)

/-- R212, R215, R228, R239: while Running, a step with the limit reached stops with StepLimitExceeded before any fetch;
otherwise a fetch with pc >= N stops with ProgramCounterOverrun, its info and index the pc. All else stays. -/
def Obligations.StepStopsBeforeExecuting : Prop :=
  ∀ s : State, s.status = .running →
    (∀ limit, s.stepLimit = some limit → limit ≤ s.steps → step s = .next { s with status := .stepLimitExceeded }) ∧
    ((∀ limit, s.stepLimit = some limit → s.steps < limit) → s.dis.length ≤ s.pc.toNat →
      step s = .next { s with status := .fault (.programCounterOverrun s.pc) s.pc })

/-- R210: a stop is final. A step of a machine that is Halted, at a Fault or past its limit changes nothing; that a step
of an Idle machine changes nothing is the model's choice (notes/assumptions/8.md). -/
def Obligations.StoppedMachineStaysPut : Prop :=
  ∀ s : State, s.status ≠ .running → step s = .next s

/-- R236, R237: every step answers a next state. No instruction, error or stop leaves the machine without one; that a
runtime error is a next state is the model's choice (notes/assumptions/7.md). -/
def Obligations.EveryStepAnswersNext : Prop :=
  ∀ s : State, ∃ t, step s = .next t

/-- R236, R217: a step that ends in a fault keeps none of the instruction's writes: but for the status and the cleared
jump mark the state is the one before the step, and the failing index is its pc. Rests on the spec's decision 92 D18. -/
def Obligations.FaultsKeepNoWrites : Prop :=
  ∀ (s t : State) (e : RuntimeError) (index : Word), s.status = .running → step s = .next t →
    t.status = .fault e index → index = s.pc ∧ t = { s with status := .fault e index, jumped := t.jumped }

/-- R216: what a step of a running machine does to pc, by the fetched instruction and the status after it. Rests on the
spec's decisions 92 D8 (the target's slot, notes/assumptions/3.md), D9 (pc stays at the HLT), D16 (the truncating
division), D17 (the jump mark decides the advance) and D18 (pc stays at a faulting instruction). -/
def Obligations.PcAfterStepByInstruction : Prop :=
  ∀ (s t : State) (i : Instr), s.status = .running → s.limitReached = false → s.fetch = some i → step s = .next t →
    (t.status ≠ .running → t.pc = s.pc) ∧
    (t.status = .running → i.opcode ≠ .jmp → i.opcode ≠ .ifn → t.pc = s.pc + 1) ∧
    (i.opcode = .ifn → s.cmp ≠ 0 → t.pc = s.pc + 1) ∧
    (i.opcode = .jmp ∨ i.opcode = .ifn ∧ s.cmp = 0 →
      t.pc.toNat = (match i.form with
        | .r _ _ b | .m _ _ b | .b _ _ b _ => (s.reg b).toNat
        | .i _ _ v | .x _ _ v => v.toNat) / 4)

/-- R167, R213, R38: a jump to its own index is a jump: pc stays, the step counts, the machine runs on. Rests on the
spec's decision 92 D17. -/
def Obligations.JumpToItselfStaysThere : Prop :=
  ∀ (s : State) (d a : RegIdx) (v : Word), s.status = .running → s.limitReached = false →
    s.fetch = some (.jmpX d a v) → v.toNat / 4 = s.pc.toNat →
    step s = .next { s with jumped := true, steps := s.steps + 1 }

/-- R20, R27, R30, R33, R73: no step changes the decoded program, the stack pointer, the arithmetic or the interrupt
flag, the capacity, the fill, the step limit or the decoder's state: a program cannot modify itself. -/
def Obligations.StepKeepsProgramAndInertState : Prop :=
  ∀ s t : State, step s = .next t →
    t.program = s.program ∧ KeepsInert s t ∧ t.mem.capacity = s.mem.capacity ∧ t.mem.fill = s.mem.fill ∧
    t.stepLimit = s.stepLimit ∧ t.ext = s.ext

/-- R20, R29, R51: who writes what. A step that changes a byte of memory executed an SD, and the byte is one of the four
at its address; one that changes a register executed a SET, SUB or MUL with that register as its dest; one that changes
the compare flag executed a CMP and left EQ or NE; one that sets the jump mark executed a JMP or an IFN on EQ. -/
def Obligations.EachPieceOfStateHasItsWriters : Prop :=
  ∀ s t : State, step s = .next t →
    (∀ a, t.mem.byte a ≠ s.mem.byte a → ∃ i addr, s.fetch = some i ∧ i.opcode = .sd ∧ Instr.address i s = some addr ∧
      addr ≤ a ∧ a < addr + 4) ∧
    (∀ r, t.reg r ≠ s.reg r → ∃ i, s.fetch = some i ∧ (i.opcode = .set ∨ i.opcode = .sub ∨ i.opcode = .mul) ∧
      r = i.form.dest) ∧
    (t.cmp ≠ s.cmp → (∃ i, s.fetch = some i ∧ i.opcode = .cmp) ∧ (t.cmp = 0 ∨ t.cmp = 1)) ∧
    (s.jumped = false → t.jumped = true → ∃ i, s.fetch = some i ∧ (i.opcode = .jmp ∨ i.opcode = .ifn ∧ s.cmp = 0))

/-- R27, R30, R31: sp, arith and intr are read by nothing: two machines that differ in them only take the same step,
and differ in them only after it. -/
def Obligations.InertStateIsNeverRead : Prop :=
  ∀ (s t : State) (sp : Word) (arith intr : Byte), step s = .next t →
    step { s with sp := sp, arith := arith, intr := intr } =
      .next { t with sp := sp, arith := arith, intr := intr }

/-- The data invariant is kept by every step: memory canonical, inert state 0, the compare flag EQ or NE, the program
well formed and shorter than 2^32, pc within its bounds, the steps within the limit (R25, R27, R29, R30, R228). -/
def Obligations.StepKeepsInvariant : Prop :=
  ∀ s t : State, s.Inv → step s = .next t → t.Inv

/-- Every stop is explained by the state it leaves, and every step keeps that (R217, R231, R239). In particular
InvalidRegisterIndex never arises (R127). That a halted machine stands at its HLT is the spec's decision 92 D9, a claim
on pc after halt; that a fault stands at its instruction, with what that read still there, is D18. -/
def Obligations.StepKeepsStopsExplained : Prop :=
  ∀ s t : State, s.StopExplained → step s = .next t → t.StopExplained

/-- Both invariants hold right after reset, for every capacity, fill and step limit the parameters allow. -/
def Obligations.ResetMeetsBothInvariants : Prop :=
  State.reset.Inv ∧ State.reset.StopExplained ∧
  ∀ (capacity : Nat) (fill : Byte) (limit : Option Nat) (s t : State), hostNew capacity fill limit s = .ok t →
    s.Inv → t.Inv ∧ t.StopExplained

/-- R222, R224: the host's transactions keep the data invariant. -/
def Obligations.HostTransactionsKeepInvariant : Prop :=
  ∀ s : State, s.Inv →
    (∀ (m : OpcodeMap) (ws : List Word) (reply : LoadReply), hostLoad m ws s = .ok reply → reply.state.Inv) ∧
    (∀ t, hostStart s = .ok t → t.Inv) ∧
    (∀ (fuel : Nat) (t : State), hostRun fuel s = .next t → t.Inv)

/-- R222, R233: on a machine that is not Running, a load of words that decode stores the decoded program and changes
nothing else; a load that is rejected changes nothing and reports the decoder's error. A program of 2^32 instructions or
more is outside the parameters (notes/assumptions/17.md). That a successful load leaves the status as it was is DEDUCED
and the model's (notes/assumptions/11.md). Rests on the spec's decisions 92 D15 and D30. -/
def Obligations.LoadStoresTheProgramOrNothing : Prop :=
  ∀ (m : OpcodeMap) (ws : List Word) (s : State), s.status ≠ .running → s.ext = none →
    (∀ prog, decode m ws = .ok prog → prog.length < 2 ^ 32 →
      hostLoad m ws s = .ok ⟨{ s with program := some prog }, none⟩) ∧
    (∀ e, decode m ws = .error e → hostLoad m ws s = .ok ⟨s, some e⟩)

/-- R228, R217: with a step limit a run ends: from a running state with `steps` within the limit, one step more than the
instructions left takes it out of Running, with at most the limit's number of steps counted. -/
def Obligations.StepLimitEndsEveryRun : Prop :=
  ∀ (s : State) (limit : Nat), s.status = .running → s.stepLimit = some limit → s.steps ≤ limit →
    ∃ t, runSteps (limit - s.steps + 1) s = .next t ∧ t.status ≠ .running ∧ t.steps ≤ limit

/-- R224, R225: run on a machine that has stopped takes no step and the result is the same again; run on an Idle machine
with a program starts it. Rests on the spec's decision 92 D25. That run on an Idle machine with no program is the fault
runWithoutProgram is the model's choice (notes/assumptions/22.md). -/
def Obligations.RunOfStoppedMachineTakesNoStep : Prop :=
  ∀ (s : State) (fuel : Nat),
    ((∃ r, s.runResult = some r) → hostRun fuel s = .next s) ∧
    (s.status = .idle → s.program.isSome = true →
      hostRun fuel s = runSteps fuel { s with status := .running }) ∧
    (s.status = .idle → s.program = none → hostRun fuel s = .fault .runWithoutProgram)

/-- R226: dump shows the registers, the flags, pc and sp as they are, and the word at DUMP_ADDR when there is one and it
is in range. Rests on the spec's decision 92 D27. -/
def Obligations.DumpShowsTheState : Prop :=
  ∀ (s : State) (addr : Nat), s.status ≠ .running → ∃ d, hostDump (some addr) s = .ok d ∧
    d.regs = s.regs ∧ d.cmp = s.cmp ∧ d.arith = s.arith ∧ d.intr = s.intr ∧ d.pc = s.pc ∧ d.sp = s.sp ∧
    (addr + 4 ≤ s.mem.capacity → ∃ v, d.window = some v ∧ v.toNat = wordAt s.mem addr) ∧
    (s.mem.capacity < addr + 4 → d.window = none) ∧
    ∃ d', hostDump none s = .ok d' ∧ d' = { d with window := none }

/-- The host's placed word runs next: where the decoder reads an instruction from a table word, the very next step of
the machine with that word placed fetches it and executes it (notes/assumptions/9.md). -/
def Obligations.PlacedWordRunsNext : Prop :=
  ∀ (s : State) (nbits w : Nat) (i : Instr), decodeTableWord nbits w = some i →
    (s.withFetchWord nbits w).status = .running ∧ (s.withFetchWord nbits w).limitReached = false ∧
    (s.withFetchWord nbits w).fetch = some i ∧ (s.withFetchWord nbits w).pc = s.pc ∧
    (s.withFetchWord nbits w).regs = s.regs ∧ (s.withFetchWord nbits w).mem = s.mem
end

