-- ==== Sys2Proof/Laws/PerInstr.lean ====
section
/-!
SUPPORT. Statements about all instructions, made per instruction. Family `Refits`: an instruction is the one its own
opcode and operand list give back, so the opcode and the operand list lose nothing (spec/10_state.md R33).
-/

namespace Sys2Proof.Laws

/-- The instruction rebuilt from its opcode and operand list is the instruction. -/
def Refits.Statement (i : Instr) : Prop := Instr.ofForm i.opcode i.form = some i

theorem Refits.setR (d a b : RegIdx) : Refits.Statement (.setR d a b) := rfl
theorem Refits.setI (d a : RegIdx) (v : Word) : Refits.Statement (.setI d a v) := rfl
theorem Refits.setX (d a : RegIdx) (v : Word) : Refits.Statement (.setX d a v) := rfl
theorem Refits.setM (d a b : RegIdx) : Refits.Statement (.setM d a b) := rfl
theorem Refits.setB (d a b : RegIdx) (o : Word) : Refits.Statement (.setB d a b o) := rfl
theorem Refits.subR (d a b : RegIdx) : Refits.Statement (.subR d a b) := rfl
theorem Refits.subI (d a : RegIdx) (v : Word) : Refits.Statement (.subI d a v) := rfl
theorem Refits.subX (d a : RegIdx) (v : Word) : Refits.Statement (.subX d a v) := rfl
theorem Refits.subM (d a b : RegIdx) : Refits.Statement (.subM d a b) := rfl
theorem Refits.subB (d a b : RegIdx) (o : Word) : Refits.Statement (.subB d a b o) := rfl
theorem Refits.mulR (d a b : RegIdx) : Refits.Statement (.mulR d a b) := rfl
theorem Refits.mulI (d a : RegIdx) (v : Word) : Refits.Statement (.mulI d a v) := rfl
theorem Refits.mulX (d a : RegIdx) (v : Word) : Refits.Statement (.mulX d a v) := rfl
theorem Refits.mulM (d a b : RegIdx) : Refits.Statement (.mulM d a b) := rfl
theorem Refits.mulB (d a b : RegIdx) (o : Word) : Refits.Statement (.mulB d a b o) := rfl
theorem Refits.sdI (d a : RegIdx) (v : Word) : Refits.Statement (.sdI d a v) := rfl
theorem Refits.sdX (d a : RegIdx) (v : Word) : Refits.Statement (.sdX d a v) := rfl
theorem Refits.sdM (d a b : RegIdx) : Refits.Statement (.sdM d a b) := rfl
theorem Refits.sdB (d a b : RegIdx) (o : Word) : Refits.Statement (.sdB d a b o) := rfl
theorem Refits.cmpR (d a b : RegIdx) : Refits.Statement (.cmpR d a b) := rfl
theorem Refits.jmpR (d a b : RegIdx) : Refits.Statement (.jmpR d a b) := rfl
theorem Refits.jmpI (d a : RegIdx) (v : Word) : Refits.Statement (.jmpI d a v) := rfl
theorem Refits.jmpX (d a : RegIdx) (v : Word) : Refits.Statement (.jmpX d a v) := rfl
theorem Refits.ifnR (d a b : RegIdx) : Refits.Statement (.ifnR d a b) := rfl
theorem Refits.ifnI (d a : RegIdx) (v : Word) : Refits.Statement (.ifnI d a v) := rfl
theorem Refits.ifnX (d a : RegIdx) (v : Word) : Refits.Statement (.ifnX d a v) := rfl
theorem Refits.hlt (f : Form) : Refits.Statement (.hlt f) := rfl
theorem Refits.psh (f : Form) : Refits.Statement (.psh f) := rfl
theorem Refits.pop (f : Form) : Refits.Statement (.pop f) := rfl
theorem Refits.mov (f : Form) : Refits.Statement (.mov f) := rfl
theorem Refits.add (f : Form) : Refits.Statement (.add f) := rfl
theorem Refits.div (f : Form) : Refits.Statement (.div f) := rfl
theorem Refits.andOp (f : Form) : Refits.Statement (.andOp f) := rfl
theorem Refits.orOp (f : Form) : Refits.Statement (.orOp f) := rfl
theorem Refits.xor (f : Form) : Refits.Statement (.xor f) := rfl
theorem Refits.notOp (f : Form) : Refits.Statement (.notOp f) := rfl
theorem Refits.sl (f : Form) : Refits.Statement (.sl f) := rfl
theorem Refits.sr (f : Form) : Refits.Statement (.sr f) := rfl
theorem Refits.ld (f : Form) : Refits.Statement (.ld f) := rfl
theorem Refits.sd16 (f : Form) : Refits.Statement (.sd16 f) := rfl
theorem Refits.ld16 (f : Form) : Refits.Statement (.ld16 f) := rfl
theorem Refits.sd8 (f : Form) : Refits.Statement (.sd8 f) := rfl
theorem Refits.ld8 (f : Form) : Refits.Statement (.ld8 f) := rfl
theorem Refits.ld16s (f : Form) : Refits.Statement (.ld16s f) := rfl
theorem Refits.ld8s (f : Form) : Refits.Statement (.ld8s f) := rfl
theorem Refits.ifOp (f : Form) : Refits.Statement (.ifOp f) := rfl
theorem Refits.ifg (f : Form) : Refits.Statement (.ifg f) := rfl
theorem Refits.ifl (f : Form) : Refits.Statement (.ifl f) := rfl
theorem Refits.ife (f : Form) : Refits.Statement (.ife f) := rfl
theorem Refits.ifne (f : Form) : Refits.Statement (.ifne f) := rfl
theorem Refits.call (f : Form) : Refits.Statement (.call f) := rfl
theorem Refits.ret (f : Form) : Refits.Statement (.ret f) := rfl

/-- The family's statement holds of every instruction. -/
theorem Refits.all (i : Instr) : Refits.Statement i := by cases i <;> rfl

end Sys2Proof.Laws
end

