-- ==== Sys2Proof/Laws/Decode.lean ====
section
/-!
SUPPORT. The laws of the decoder and the encoder: the opcode map and its inverse, the mode field, building an
instruction from its opcode and operand list, the fields of an encoded word, and what the decoder makes of the first
word of an encoded instruction.
-/

namespace Sys2Proof

/-! ## The opcode map -/

/-- The list of all opcodes holds every opcode. -/
theorem Opcode.mem_all (op : Opcode) : op ∈ Opcode.all := by cases op <;> decide

/-- `OPC_inv` of a mnemonic's own byte is the mnemonic, whatever the map (R89, R111). -/
@[simp] theorem OpcodeMap.inv_byte (m : OpcodeMap) (op : Opcode) : m.inv (m.byte op) = some op := by
  unfold OpcodeMap.inv
  cases h : Opcode.all.find? (fun o => m.byte o == m.byte op) with
  | none => simpa using List.find?_eq_none.1 h op op.mem_all
  | some o => exact congrArg some (m.injective o op (by simpa using List.find?_some h))

/-- A mnemonic that `OPC_inv` finds has the byte looked for. -/
theorem OpcodeMap.byte_of_inv {m : OpcodeMap} {b : Byte} {op : Opcode} (h : m.inv b = some op) : m.byte op = b := by
  simpa using List.find?_some h

/-! ## Modes -/

@[simp] theorem AddrMode.ofBits_bits (mode : AddrMode) : AddrMode.ofBits mode.bits = mode := by cases mode <;> rfl

/-- Every value of the mode field is some mode's (R83). -/
@[simp] theorem AddrMode.bits_ofBits (b : BitVec 2) : (AddrMode.ofBits b).bits = b := by
  revert b; decide

/-! ## Instructions from opcode and operand list -/

/-- The instruction rebuilt from an instruction's own opcode and operand list (R33). -/
@[simp] theorem Instr.ofForm_self (i : Instr) : Instr.ofForm i.opcode i.form = some i := Laws.Refits.all i

/-- The instruction built from an opcode and an operand list has that opcode and that operand list. -/
theorem Instr.of_ofForm {op : Opcode} {f : Form} {i : Instr} (h : Instr.ofForm op f = some i) :
    i.opcode = op ∧ i.form = f := by
  cases op <;> cases f <;> first
    | (obtain rfl := Option.some.inj h; exact ⟨rfl, rfl⟩)
    | cases h

/-- There is such an instruction exactly where the opcode admits the mode (R91). -/
theorem Instr.ofForm_isSome (op : Opcode) (f : Form) : (Instr.ofForm op f).isSome = op.admits f.mode := by
  cases op <;> cases f <;> rfl

/-- Every instruction's opcode admits its mode (R91). -/
theorem Instr.admits_mode (i : Instr) : i.opcode.admits i.mode = true := by
  rw [Instr.mode, ← Instr.ofForm_isSome, Instr.ofForm_self]
  rfl

/-! ## The fields of an encoded word (R98 against R83) -/

section Fields

variable (b : Byte) (m : BitVec 2) (d s x y : BitVec 4)

@[simp] theorem opcodeField_packWord : opcodeField (packWord b m d s x y) = b := by
  unfold opcodeField packWord
  apply BitVec.eq_of_getLsbD_eq
  intro i hi
  interval_cases i <;> simp

@[simp] theorem modeField_packWord : modeField (packWord b m d s x y) = m := by
  unfold modeField packWord
  apply BitVec.eq_of_getLsbD_eq
  intro i hi
  interval_cases i <;> simp

@[simp] theorem destField_packWord : destField (packWord b m d s x y) = d := by
  unfold destField arguments packWord
  apply BitVec.eq_of_getLsbD_eq
  intro i hi
  interval_cases i <;> simp

@[simp] theorem src1Field_packWord : src1Field (packWord b m d s x y) = s := by
  unfold src1Field arguments packWord
  apply BitVec.eq_of_getLsbD_eq
  intro i hi
  interval_cases i <;> simp

@[simp] theorem field74_packWord : field74 (packWord b m d s x y) = x := by
  unfold field74 arguments packWord
  apply BitVec.eq_of_getLsbD_eq
  intro i hi
  interval_cases i <;> simp

@[simp] theorem field30_packWord : field30 (packWord b m d s x y) = y := by
  unfold field30 arguments packWord
  apply BitVec.eq_of_getLsbD_eq
  intro i hi
  interval_cases i <;> simp

@[simp] theorem extFlag_packWord : extFlag (packWord b m d s x y) = y.getLsbD 0 := by
  unfold extFlag arguments packWord
  simp

end Fields

/-- A value that fits a 4-bit field survives the field (R87). -/
theorem setWidth_of_fits4 {v : Word} (h : fits4 v = true) : (v.setWidth 4).setWidth 32 = v := by
  have hv : v.toNat < 16 := by simpa [fits4] using h
  apply BitVec.eq_of_toNat_eq
  simp only [BitVec.toNat_setWidth]
  omega

/-! ## The first word of an encoded instruction -/

/-- The first word of an instruction's encoding (R98). -/
def headWord (m : OpcodeMap) (i : Instr) : Word :=
  packWord (m.byte i.opcode) i.form.mode.bits i.form.dest i.form.src1 i.form.f74 i.form.f30

/-- The decoder takes an extension word after an encoded first word exactly for an extended instruction (R88). -/
theorem takesExtension_headWord (m : OpcodeMap) (i : Instr) : takesExtension (headWord m i) = i.extended := by
  unfold takesExtension headWord Instr.extended
  rw [modeField_packWord, extFlag_packWord]
  cases i.form <;> simp [Form.mode, AddrMode.bits, Form.f30, Form.extended]

/-- The operand list the decoder reads from the first word of an unextended, well-formed instruction. -/
theorem inlineForm_headWord (m : OpcodeMap) {i : Instr} (hw : i.wf = true) (hx : i.extended = false) :
    inlineForm (headWord m i) = i.form := by
  unfold inlineForm headWord
  rw [modeField_packWord, destField_packWord, src1Field_packWord, field74_packWord, field30_packWord,
    AddrMode.ofBits_bits]
  unfold Instr.wf at hw
  unfold Instr.extended at hx
  cases hf : i.form <;> rw [hf] at hw hx <;> first
    | rfl
    | (simp only [Form.mode, Form.dest, Form.src1, Form.f74, Form.f30, setWidth_of_fits4 hw])
    | cases hx

/-- Decoding the first word of an unextended, well-formed instruction gives the instruction. -/
theorem decodeFirst_headWord (m : OpcodeMap) {i : Instr} (hw : i.wf = true) (hx : i.extended = false) :
    decodeFirst m (headWord m i) = .ok (.whole i) := by
  have ho : opcodeField (headWord m i) = m.byte i.opcode := opcodeField_packWord ..
  simp only [decodeFirst, ho, OpcodeMap.inv_byte, takesExtension_headWord, hx, inlineForm_headWord m hw hx,
    Instr.ofForm_self]
  rfl

/-- Decoding the first word of an extended instruction leaves its opcode, dest and src1 waiting for the extension word. -/
theorem decodeFirst_headWord_extended (m : OpcodeMap) {i : Instr} {d a : RegIdx} {v : Word} (hf : i.form = .x d a v) :
    decodeFirst m (headWord m i) = .ok (.extended i.opcode d a) := by
  have ho : opcodeField (headWord m i) = m.byte i.opcode := opcodeField_packWord ..
  have hx : i.extended = true := by rw [Instr.extended, hf]; rfl
  have ha : i.opcode.admits .immediate = true := by have := i.admits_mode; rwa [Instr.mode, hf] at this
  have hd : destField (headWord m i) = d := by rw [headWord, destField_packWord, hf]; rfl
  have hs : src1Field (headWord m i) = a := by rw [headWord, src1Field_packWord, hf]; rfl
  simp only [decodeFirst, ho, OpcodeMap.inv_byte, takesExtension_headWord, hx, if_true, ha, hd, hs]

/-- The extension word completes the instruction it was encoded from. -/
theorem withExtension_self {i : Instr} {d a : RegIdx} {v : Word} (hf : i.form = .x d a v) :
    withExtension i.opcode d a v = .ok i := by
  rw [withExtension, ← hf, Instr.ofForm_self]

/-! ## The program decoder, one instruction at a time -/

section Program

variable {m : OpcodeMap} {k : Nat} {w v : Word} {rest : List Word} {i : Instr} {op : Opcode} {d a : RegIdx}

@[simp] theorem decodeFrom_nil : decodeFrom m k [] = .ok [] := rfl

theorem decodeFrom_error {e : DecodeErrorKind} (h : decodeFirst m w = .error e) :
    decodeFrom m k (w :: rest) = .error ⟨e, k, w⟩ := by
  simp only [decodeFrom, h]

theorem decodeFrom_whole (h : decodeFirst m w = .ok (.whole i)) :
    decodeFrom m k (w :: rest) = (decodeFrom m (k + 1) rest).map (i :: ·) := by
  simp only [decodeFrom, h]

theorem decodeFrom_truncated (h : decodeFirst m w = .ok (.extended op d a)) :
    decodeFrom m k [w] = .error ⟨.truncatedExtension, k, w⟩ := by
  simp only [decodeFrom, h]

theorem decodeFrom_extended (h : decodeFirst m w = .ok (.extended op d a)) (hi : withExtension op d a v = .ok i) :
    decodeFrom m k (w :: v :: rest) = (decodeFrom m (k + 2) rest).map (i :: ·) := by
  simp only [decodeFrom, h, hi]

/-- A whole first word: its opcode byte, its operand list, and that it takes no extension word. -/
theorem decodeFirst_whole (h : decodeFirst m w = .ok (.whole i)) :
    m.byte i.opcode = opcodeField w ∧ takesExtension w = false ∧ i.form = inlineForm w := by
  unfold decodeFirst at h
  split at h
  · cases h
  · rename_i o ho
    split at h
    · split at h <;> cases h
    · split at h
      · rename_i j hj
        obtain ⟨hop, hf⟩ := Instr.of_ofForm hj
        obtain rfl : j = i := by cases h; rfl
        exact ⟨hop ▸ OpcodeMap.byte_of_inv ho, Bool.eq_false_iff.2 ‹_›, hf⟩
      · cases h

/-- An extended first word: its opcode byte, its fields, and that the opcode admits Immediate mode. -/
theorem decodeFirst_extended (h : decodeFirst m w = .ok (.extended op d a)) :
    m.byte op = opcodeField w ∧ takesExtension w = true ∧ d = destField w ∧ a = src1Field w ∧
      op.admits .immediate = true := by
  unfold decodeFirst at h
  split at h
  · cases h
  · rename_i o ho
    split at h
    · rename_i hx
      split at h
      · rename_i hadm
        injection h with h
        injection h with h1 h2 h3
        subst h1
        exact ⟨OpcodeMap.byte_of_inv ho, hx, h2.symm, h3.symm, hadm⟩
      · cases h
    · split at h <;> cases h

/-- With an admitted opcode the extension word always completes an instruction (R115). -/
theorem withExtension_of_admits (h : op.admits .immediate = true) (d a : RegIdx) (v : Word) :
    ∃ i, withExtension op d a v = .ok i ∧ i.opcode = op ∧ i.form = .x d a v := by
  have hs := Instr.ofForm_isSome op (.x d a v)
  rw [show (Form.x d a v).mode = AddrMode.immediate from rfl, h] at hs
  obtain ⟨i, hi⟩ := Option.isSome_iff_exists.1 hs
  exact ⟨i, by rw [withExtension, hi], (Instr.of_ofForm hi).1, (Instr.of_ofForm hi).2⟩

end Program

end Sys2Proof
end

