-- ==== Sys2Proof/Laws/State.lean ====
section
/-!
SUPPORT. The state record's own lemmas: one per field per update, each true by rfl, and what the updates do to the
derived reads `reg`, `dis`, `fetch`. Later proofs cite these and never unfold an update.
-/

namespace Sys2Proof.Machine

variable (s : State)

/-! ### setReg -/

@[simp] theorem State.setReg_regs (r : RegIdx) (v : Word) : (s.setReg r v).regs = s.regs.set r.toNat v r.isLt := rfl
@[simp] theorem State.setReg_pc (r : RegIdx) (v : Word) : (s.setReg r v).pc = s.pc := rfl
@[simp] theorem State.setReg_sp (r : RegIdx) (v : Word) : (s.setReg r v).sp = s.sp := rfl
@[simp] theorem State.setReg_cmp (r : RegIdx) (v : Word) : (s.setReg r v).cmp = s.cmp := rfl
@[simp] theorem State.setReg_arith (r : RegIdx) (v : Word) : (s.setReg r v).arith = s.arith := rfl
@[simp] theorem State.setReg_intr (r : RegIdx) (v : Word) : (s.setReg r v).intr = s.intr := rfl
@[simp] theorem State.setReg_mem (r : RegIdx) (v : Word) : (s.setReg r v).mem = s.mem := rfl
@[simp] theorem State.setReg_program (r : RegIdx) (v : Word) : (s.setReg r v).program = s.program := rfl
@[simp] theorem State.setReg_status (r : RegIdx) (v : Word) : (s.setReg r v).status = s.status := rfl
@[simp] theorem State.setReg_jumped (r : RegIdx) (v : Word) : (s.setReg r v).jumped = s.jumped := rfl
@[simp] theorem State.setReg_steps (r : RegIdx) (v : Word) : (s.setReg r v).steps = s.steps := rfl
@[simp] theorem State.setReg_stepLimit (r : RegIdx) (v : Word) : (s.setReg r v).stepLimit = s.stepLimit := rfl
@[simp] theorem State.setReg_ext (r : RegIdx) (v : Word) : (s.setReg r v).ext = s.ext := rfl
@[simp] theorem State.setReg_dis (r : RegIdx) (v : Word) : (s.setReg r v).dis = s.dis := rfl
@[simp] theorem State.setReg_fetch (r : RegIdx) (v : Word) : (s.setReg r v).fetch = s.fetch := rfl
@[simp] theorem State.setReg_limitReached (r : RegIdx) (v : Word) : (s.setReg r v).limitReached = s.limitReached := rfl

/-! ### setPc -/

@[simp] theorem State.setPc_regs (v : Word) : (s.setPc v).regs = s.regs := rfl
@[simp] theorem State.setPc_pc (v : Word) : (s.setPc v).pc = v := rfl
@[simp] theorem State.setPc_sp (v : Word) : (s.setPc v).sp = s.sp := rfl
@[simp] theorem State.setPc_cmp (v : Word) : (s.setPc v).cmp = s.cmp := rfl
@[simp] theorem State.setPc_arith (v : Word) : (s.setPc v).arith = s.arith := rfl
@[simp] theorem State.setPc_intr (v : Word) : (s.setPc v).intr = s.intr := rfl
@[simp] theorem State.setPc_mem (v : Word) : (s.setPc v).mem = s.mem := rfl
@[simp] theorem State.setPc_program (v : Word) : (s.setPc v).program = s.program := rfl
@[simp] theorem State.setPc_status (v : Word) : (s.setPc v).status = s.status := rfl
@[simp] theorem State.setPc_jumped (v : Word) : (s.setPc v).jumped = s.jumped := rfl
@[simp] theorem State.setPc_steps (v : Word) : (s.setPc v).steps = s.steps := rfl
@[simp] theorem State.setPc_stepLimit (v : Word) : (s.setPc v).stepLimit = s.stepLimit := rfl
@[simp] theorem State.setPc_ext (v : Word) : (s.setPc v).ext = s.ext := rfl
@[simp] theorem State.setPc_dis (v : Word) : (s.setPc v).dis = s.dis := rfl
@[simp] theorem State.setPc_reg (v : Word) (q : RegIdx) : (s.setPc v).reg q = s.reg q := rfl
@[simp] theorem State.setPc_limitReached (v : Word) : (s.setPc v).limitReached = s.limitReached := rfl

/-! ### setSp -/

@[simp] theorem State.setSp_regs (v : Word) : (s.setSp v).regs = s.regs := rfl
@[simp] theorem State.setSp_pc (v : Word) : (s.setSp v).pc = s.pc := rfl
@[simp] theorem State.setSp_sp (v : Word) : (s.setSp v).sp = v := rfl
@[simp] theorem State.setSp_cmp (v : Word) : (s.setSp v).cmp = s.cmp := rfl
@[simp] theorem State.setSp_arith (v : Word) : (s.setSp v).arith = s.arith := rfl
@[simp] theorem State.setSp_intr (v : Word) : (s.setSp v).intr = s.intr := rfl
@[simp] theorem State.setSp_mem (v : Word) : (s.setSp v).mem = s.mem := rfl
@[simp] theorem State.setSp_program (v : Word) : (s.setSp v).program = s.program := rfl
@[simp] theorem State.setSp_status (v : Word) : (s.setSp v).status = s.status := rfl
@[simp] theorem State.setSp_jumped (v : Word) : (s.setSp v).jumped = s.jumped := rfl
@[simp] theorem State.setSp_steps (v : Word) : (s.setSp v).steps = s.steps := rfl
@[simp] theorem State.setSp_stepLimit (v : Word) : (s.setSp v).stepLimit = s.stepLimit := rfl
@[simp] theorem State.setSp_ext (v : Word) : (s.setSp v).ext = s.ext := rfl
@[simp] theorem State.setSp_dis (v : Word) : (s.setSp v).dis = s.dis := rfl
@[simp] theorem State.setSp_reg (v : Word) (q : RegIdx) : (s.setSp v).reg q = s.reg q := rfl
@[simp] theorem State.setSp_fetch (v : Word) : (s.setSp v).fetch = s.fetch := rfl
@[simp] theorem State.setSp_limitReached (v : Word) : (s.setSp v).limitReached = s.limitReached := rfl

/-! ### setCmp -/

@[simp] theorem State.setCmp_regs (v : Byte) : (s.setCmp v).regs = s.regs := rfl
@[simp] theorem State.setCmp_pc (v : Byte) : (s.setCmp v).pc = s.pc := rfl
@[simp] theorem State.setCmp_sp (v : Byte) : (s.setCmp v).sp = s.sp := rfl
@[simp] theorem State.setCmp_cmp (v : Byte) : (s.setCmp v).cmp = v := rfl
@[simp] theorem State.setCmp_arith (v : Byte) : (s.setCmp v).arith = s.arith := rfl
@[simp] theorem State.setCmp_intr (v : Byte) : (s.setCmp v).intr = s.intr := rfl
@[simp] theorem State.setCmp_mem (v : Byte) : (s.setCmp v).mem = s.mem := rfl
@[simp] theorem State.setCmp_program (v : Byte) : (s.setCmp v).program = s.program := rfl
@[simp] theorem State.setCmp_status (v : Byte) : (s.setCmp v).status = s.status := rfl
@[simp] theorem State.setCmp_jumped (v : Byte) : (s.setCmp v).jumped = s.jumped := rfl
@[simp] theorem State.setCmp_steps (v : Byte) : (s.setCmp v).steps = s.steps := rfl
@[simp] theorem State.setCmp_stepLimit (v : Byte) : (s.setCmp v).stepLimit = s.stepLimit := rfl
@[simp] theorem State.setCmp_ext (v : Byte) : (s.setCmp v).ext = s.ext := rfl
@[simp] theorem State.setCmp_dis (v : Byte) : (s.setCmp v).dis = s.dis := rfl
@[simp] theorem State.setCmp_reg (v : Byte) (q : RegIdx) : (s.setCmp v).reg q = s.reg q := rfl
@[simp] theorem State.setCmp_fetch (v : Byte) : (s.setCmp v).fetch = s.fetch := rfl
@[simp] theorem State.setCmp_limitReached (v : Byte) : (s.setCmp v).limitReached = s.limitReached := rfl

/-! ### raise -/

@[simp] theorem State.raise_regs (e : RuntimeError) : (s.raise e).regs = s.regs := rfl
@[simp] theorem State.raise_pc (e : RuntimeError) : (s.raise e).pc = s.pc := rfl
@[simp] theorem State.raise_sp (e : RuntimeError) : (s.raise e).sp = s.sp := rfl
@[simp] theorem State.raise_cmp (e : RuntimeError) : (s.raise e).cmp = s.cmp := rfl
@[simp] theorem State.raise_arith (e : RuntimeError) : (s.raise e).arith = s.arith := rfl
@[simp] theorem State.raise_intr (e : RuntimeError) : (s.raise e).intr = s.intr := rfl
@[simp] theorem State.raise_mem (e : RuntimeError) : (s.raise e).mem = s.mem := rfl
@[simp] theorem State.raise_program (e : RuntimeError) : (s.raise e).program = s.program := rfl
@[simp] theorem State.raise_status (e : RuntimeError) : (s.raise e).status = .fault e s.pc := rfl
@[simp] theorem State.raise_jumped (e : RuntimeError) : (s.raise e).jumped = s.jumped := rfl
@[simp] theorem State.raise_steps (e : RuntimeError) : (s.raise e).steps = s.steps := rfl
@[simp] theorem State.raise_stepLimit (e : RuntimeError) : (s.raise e).stepLimit = s.stepLimit := rfl
@[simp] theorem State.raise_ext (e : RuntimeError) : (s.raise e).ext = s.ext := rfl
@[simp] theorem State.raise_dis (e : RuntimeError) : (s.raise e).dis = s.dis := rfl
@[simp] theorem State.raise_reg (e : RuntimeError) (q : RegIdx) : (s.raise e).reg q = s.reg q := rfl
@[simp] theorem State.raise_fetch (e : RuntimeError) : (s.raise e).fetch = s.fetch := rfl
@[simp] theorem State.raise_limitReached (e : RuntimeError) : (s.raise e).limitReached = s.limitReached := rfl

/-! ### setMem -/

@[simp] theorem State.setMem_regs (m : Memory) : (s.setMem m).regs = s.regs := rfl
@[simp] theorem State.setMem_pc (m : Memory) : (s.setMem m).pc = s.pc := rfl
@[simp] theorem State.setMem_sp (m : Memory) : (s.setMem m).sp = s.sp := rfl
@[simp] theorem State.setMem_cmp (m : Memory) : (s.setMem m).cmp = s.cmp := rfl
@[simp] theorem State.setMem_arith (m : Memory) : (s.setMem m).arith = s.arith := rfl
@[simp] theorem State.setMem_intr (m : Memory) : (s.setMem m).intr = s.intr := rfl
@[simp] theorem State.setMem_mem (m : Memory) : (s.setMem m).mem = m := rfl
@[simp] theorem State.setMem_program (m : Memory) : (s.setMem m).program = s.program := rfl
@[simp] theorem State.setMem_status (m : Memory) : (s.setMem m).status = s.status := rfl
@[simp] theorem State.setMem_jumped (m : Memory) : (s.setMem m).jumped = s.jumped := rfl
@[simp] theorem State.setMem_steps (m : Memory) : (s.setMem m).steps = s.steps := rfl
@[simp] theorem State.setMem_stepLimit (m : Memory) : (s.setMem m).stepLimit = s.stepLimit := rfl
@[simp] theorem State.setMem_ext (m : Memory) : (s.setMem m).ext = s.ext := rfl
@[simp] theorem State.setMem_dis (m : Memory) : (s.setMem m).dis = s.dis := rfl
@[simp] theorem State.setMem_reg (m : Memory) (q : RegIdx) : (s.setMem m).reg q = s.reg q := rfl
@[simp] theorem State.setMem_fetch (m : Memory) : (s.setMem m).fetch = s.fetch := rfl
@[simp] theorem State.setMem_limitReached (m : Memory) : (s.setMem m).limitReached = s.limitReached := rfl

/-! ### jumpTo -/

@[simp] theorem State.jumpTo_regs (k : Word) : (s.jumpTo k).regs = s.regs := rfl
@[simp] theorem State.jumpTo_pc (k : Word) : (s.jumpTo k).pc = k := rfl
@[simp] theorem State.jumpTo_sp (k : Word) : (s.jumpTo k).sp = s.sp := rfl
@[simp] theorem State.jumpTo_cmp (k : Word) : (s.jumpTo k).cmp = s.cmp := rfl
@[simp] theorem State.jumpTo_arith (k : Word) : (s.jumpTo k).arith = s.arith := rfl
@[simp] theorem State.jumpTo_intr (k : Word) : (s.jumpTo k).intr = s.intr := rfl
@[simp] theorem State.jumpTo_mem (k : Word) : (s.jumpTo k).mem = s.mem := rfl
@[simp] theorem State.jumpTo_program (k : Word) : (s.jumpTo k).program = s.program := rfl
@[simp] theorem State.jumpTo_status (k : Word) : (s.jumpTo k).status = s.status := rfl
@[simp] theorem State.jumpTo_jumped (k : Word) : (s.jumpTo k).jumped = true := rfl
@[simp] theorem State.jumpTo_steps (k : Word) : (s.jumpTo k).steps = s.steps := rfl
@[simp] theorem State.jumpTo_stepLimit (k : Word) : (s.jumpTo k).stepLimit = s.stepLimit := rfl
@[simp] theorem State.jumpTo_ext (k : Word) : (s.jumpTo k).ext = s.ext := rfl
@[simp] theorem State.jumpTo_dis (k : Word) : (s.jumpTo k).dis = s.dis := rfl
@[simp] theorem State.jumpTo_reg (k : Word) (q : RegIdx) : (s.jumpTo k).reg q = s.reg q := rfl
@[simp] theorem State.jumpTo_limitReached (k : Word) : (s.jumpTo k).limitReached = s.limitReached := rfl

/-! ### halt -/

@[simp] theorem State.halt_regs : (s.halt).regs = s.regs := rfl
@[simp] theorem State.halt_pc : (s.halt).pc = s.pc := rfl
@[simp] theorem State.halt_sp : (s.halt).sp = s.sp := rfl
@[simp] theorem State.halt_cmp : (s.halt).cmp = s.cmp := rfl
@[simp] theorem State.halt_arith : (s.halt).arith = s.arith := rfl
@[simp] theorem State.halt_intr : (s.halt).intr = s.intr := rfl
@[simp] theorem State.halt_mem : (s.halt).mem = s.mem := rfl
@[simp] theorem State.halt_program : (s.halt).program = s.program := rfl
@[simp] theorem State.halt_status : (s.halt).status = .halted := rfl
@[simp] theorem State.halt_jumped : (s.halt).jumped = s.jumped := rfl
@[simp] theorem State.halt_steps : (s.halt).steps = s.steps := rfl
@[simp] theorem State.halt_stepLimit : (s.halt).stepLimit = s.stepLimit := rfl
@[simp] theorem State.halt_ext : (s.halt).ext = s.ext := rfl
@[simp] theorem State.halt_dis : (s.halt).dis = s.dis := rfl
@[simp] theorem State.halt_reg (q : RegIdx) : (s.halt).reg q = s.reg q := rfl
@[simp] theorem State.halt_fetch : (s.halt).fetch = s.fetch := rfl
@[simp] theorem State.halt_limitReached : (s.halt).limitReached = s.limitReached := rfl

/-! ### beginInstr -/

@[simp] theorem State.beginInstr_regs : (s.beginInstr).regs = s.regs := rfl
@[simp] theorem State.beginInstr_pc : (s.beginInstr).pc = s.pc := rfl
@[simp] theorem State.beginInstr_sp : (s.beginInstr).sp = s.sp := rfl
@[simp] theorem State.beginInstr_cmp : (s.beginInstr).cmp = s.cmp := rfl
@[simp] theorem State.beginInstr_arith : (s.beginInstr).arith = s.arith := rfl
@[simp] theorem State.beginInstr_intr : (s.beginInstr).intr = s.intr := rfl
@[simp] theorem State.beginInstr_mem : (s.beginInstr).mem = s.mem := rfl
@[simp] theorem State.beginInstr_program : (s.beginInstr).program = s.program := rfl
@[simp] theorem State.beginInstr_status : (s.beginInstr).status = s.status := rfl
@[simp] theorem State.beginInstr_jumped : (s.beginInstr).jumped = false := rfl
@[simp] theorem State.beginInstr_steps : (s.beginInstr).steps = s.steps := rfl
@[simp] theorem State.beginInstr_stepLimit : (s.beginInstr).stepLimit = s.stepLimit := rfl
@[simp] theorem State.beginInstr_ext : (s.beginInstr).ext = s.ext := rfl
@[simp] theorem State.beginInstr_dis : (s.beginInstr).dis = s.dis := rfl
@[simp] theorem State.beginInstr_reg (q : RegIdx) : (s.beginInstr).reg q = s.reg q := rfl
@[simp] theorem State.beginInstr_fetch : (s.beginInstr).fetch = s.fetch := rfl
@[simp] theorem State.beginInstr_limitReached : (s.beginInstr).limitReached = s.limitReached := rfl

/-! ### advance -/

@[simp] theorem State.advance_regs : (s.advance).regs = s.regs := rfl
@[simp] theorem State.advance_pc : (s.advance).pc = if s.jumped then s.pc else s.pc + 1#32 := rfl
@[simp] theorem State.advance_sp : (s.advance).sp = s.sp := rfl
@[simp] theorem State.advance_cmp : (s.advance).cmp = s.cmp := rfl
@[simp] theorem State.advance_arith : (s.advance).arith = s.arith := rfl
@[simp] theorem State.advance_intr : (s.advance).intr = s.intr := rfl
@[simp] theorem State.advance_mem : (s.advance).mem = s.mem := rfl
@[simp] theorem State.advance_program : (s.advance).program = s.program := rfl
@[simp] theorem State.advance_status : (s.advance).status = s.status := rfl
@[simp] theorem State.advance_jumped : (s.advance).jumped = s.jumped := rfl
@[simp] theorem State.advance_steps : (s.advance).steps = s.steps + 1 := rfl
@[simp] theorem State.advance_stepLimit : (s.advance).stepLimit = s.stepLimit := rfl
@[simp] theorem State.advance_ext : (s.advance).ext = s.ext := rfl
@[simp] theorem State.advance_dis : (s.advance).dis = s.dis := rfl
@[simp] theorem State.advance_reg (q : RegIdx) : (s.advance).reg q = s.reg q := rfl

/-! ### exceedLimit -/

@[simp] theorem State.exceedLimit_regs : (s.exceedLimit).regs = s.regs := rfl
@[simp] theorem State.exceedLimit_pc : (s.exceedLimit).pc = s.pc := rfl
@[simp] theorem State.exceedLimit_sp : (s.exceedLimit).sp = s.sp := rfl
@[simp] theorem State.exceedLimit_cmp : (s.exceedLimit).cmp = s.cmp := rfl
@[simp] theorem State.exceedLimit_arith : (s.exceedLimit).arith = s.arith := rfl
@[simp] theorem State.exceedLimit_intr : (s.exceedLimit).intr = s.intr := rfl
@[simp] theorem State.exceedLimit_mem : (s.exceedLimit).mem = s.mem := rfl
@[simp] theorem State.exceedLimit_program : (s.exceedLimit).program = s.program := rfl
@[simp] theorem State.exceedLimit_status : (s.exceedLimit).status = .stepLimitExceeded := rfl
@[simp] theorem State.exceedLimit_jumped : (s.exceedLimit).jumped = s.jumped := rfl
@[simp] theorem State.exceedLimit_steps : (s.exceedLimit).steps = s.steps := rfl
@[simp] theorem State.exceedLimit_stepLimit : (s.exceedLimit).stepLimit = s.stepLimit := rfl
@[simp] theorem State.exceedLimit_ext : (s.exceedLimit).ext = s.ext := rfl
@[simp] theorem State.exceedLimit_dis : (s.exceedLimit).dis = s.dis := rfl
@[simp] theorem State.exceedLimit_reg (q : RegIdx) : (s.exceedLimit).reg q = s.reg q := rfl
@[simp] theorem State.exceedLimit_fetch : (s.exceedLimit).fetch = s.fetch := rfl
@[simp] theorem State.exceedLimit_limitReached : (s.exceedLimit).limitReached = s.limitReached := rfl

/-! ### beginLoad -/

@[simp] theorem State.beginLoad_regs : (s.beginLoad).regs = s.regs := rfl
@[simp] theorem State.beginLoad_pc : (s.beginLoad).pc = s.pc := rfl
@[simp] theorem State.beginLoad_sp : (s.beginLoad).sp = s.sp := rfl
@[simp] theorem State.beginLoad_cmp : (s.beginLoad).cmp = s.cmp := rfl
@[simp] theorem State.beginLoad_arith : (s.beginLoad).arith = s.arith := rfl
@[simp] theorem State.beginLoad_intr : (s.beginLoad).intr = s.intr := rfl
@[simp] theorem State.beginLoad_mem : (s.beginLoad).mem = s.mem := rfl
@[simp] theorem State.beginLoad_program : (s.beginLoad).program = s.program := rfl
@[simp] theorem State.beginLoad_status : (s.beginLoad).status = s.status := rfl
@[simp] theorem State.beginLoad_jumped : (s.beginLoad).jumped = s.jumped := rfl
@[simp] theorem State.beginLoad_steps : (s.beginLoad).steps = s.steps := rfl
@[simp] theorem State.beginLoad_stepLimit : (s.beginLoad).stepLimit = s.stepLimit := rfl
@[simp] theorem State.beginLoad_ext : (s.beginLoad).ext = none := rfl
@[simp] theorem State.beginLoad_dis : (s.beginLoad).dis = s.dis := rfl
@[simp] theorem State.beginLoad_reg (q : RegIdx) : (s.beginLoad).reg q = s.reg q := rfl
@[simp] theorem State.beginLoad_fetch : (s.beginLoad).fetch = s.fetch := rfl
@[simp] theorem State.beginLoad_limitReached : (s.beginLoad).limitReached = s.limitReached := rfl

/-! ### storeProgram -/

@[simp] theorem State.storeProgram_regs (p : List Instr) (x : Option PartialInstr) : (s.storeProgram p x).regs = s.regs := rfl
@[simp] theorem State.storeProgram_pc (p : List Instr) (x : Option PartialInstr) : (s.storeProgram p x).pc = s.pc := rfl
@[simp] theorem State.storeProgram_sp (p : List Instr) (x : Option PartialInstr) : (s.storeProgram p x).sp = s.sp := rfl
@[simp] theorem State.storeProgram_cmp (p : List Instr) (x : Option PartialInstr) : (s.storeProgram p x).cmp = s.cmp := rfl
@[simp] theorem State.storeProgram_arith (p : List Instr) (x : Option PartialInstr) : (s.storeProgram p x).arith = s.arith := rfl
@[simp] theorem State.storeProgram_intr (p : List Instr) (x : Option PartialInstr) : (s.storeProgram p x).intr = s.intr := rfl
@[simp] theorem State.storeProgram_mem (p : List Instr) (x : Option PartialInstr) : (s.storeProgram p x).mem = s.mem := rfl
@[simp] theorem State.storeProgram_program (p : List Instr) (x : Option PartialInstr) : (s.storeProgram p x).program = some p := rfl
@[simp] theorem State.storeProgram_status (p : List Instr) (x : Option PartialInstr) : (s.storeProgram p x).status = s.status := rfl
@[simp] theorem State.storeProgram_jumped (p : List Instr) (x : Option PartialInstr) : (s.storeProgram p x).jumped = s.jumped := rfl
@[simp] theorem State.storeProgram_steps (p : List Instr) (x : Option PartialInstr) : (s.storeProgram p x).steps = s.steps := rfl
@[simp] theorem State.storeProgram_stepLimit (p : List Instr) (x : Option PartialInstr) : (s.storeProgram p x).stepLimit = s.stepLimit := rfl
@[simp] theorem State.storeProgram_ext (p : List Instr) (x : Option PartialInstr) : (s.storeProgram p x).ext = x := rfl
@[simp] theorem State.storeProgram_dis (p : List Instr) (x : Option PartialInstr) : (s.storeProgram p x).dis = p := rfl
@[simp] theorem State.storeProgram_reg (p : List Instr) (x : Option PartialInstr) (q : RegIdx) : (s.storeProgram p x).reg q = s.reg q := rfl
@[simp] theorem State.storeProgram_limitReached (p : List Instr) (x : Option PartialInstr) : (s.storeProgram p x).limitReached = s.limitReached := rfl

/-! ### Registers -/

/-- What a register write does to every register read (R21). -/
theorem State.reg_setReg (r q : RegIdx) (v : Word) : (s.setReg r v).reg q = if q = r then v else s.reg q := by
  simp only [State.reg, State.setReg, Vector.getElem_set, BitVec.toNat_inj, eq_comm]

@[simp] theorem State.reg_setReg_self (r : RegIdx) (v : Word) : (s.setReg r v).reg r = v := by
  simp [State.reg_setReg]

theorem State.reg_setReg_of_ne (r q : RegIdx) (v : Word) (h : q ≠ r) : (s.setReg r v).reg q = s.reg q := by
  simp [State.reg_setReg, h]

/-- The register-file interface agrees with the instructions' own access where the index is a 4-bit field (R23). -/
theorem State.getRegister_toNat (r : RegIdx) : s.getRegister r.toNat = .ok (s.reg r) := by
  have h : r.toNat < 16 := r.isLt
  simp [State.getRegister, State.reg, h]

/-- The register-file interface agrees with the instructions' own write where the index is a 4-bit field (R23). -/
theorem State.setRegister_toNat (r : RegIdx) (v : Word) : s.setRegister r.toNat v = .ok (s.setReg r v) := by
  have h : r.toNat < 16 := r.isLt
  simp [State.setRegister, State.setReg, h]

/-- The fetch past the end of the program finds nothing (R215). -/
theorem State.fetch_eq_none_iff : s.fetch = none ↔ s.dis.length ≤ s.pc.toNat := by
  simp [State.fetch]

/-- A step limit that has not been reached leaves room for one more step (R228). -/
theorem State.steps_lt_of_not_limitReached {limit : Nat} (hl : s.stepLimit = some limit)
    (h : s.limitReached = false) : s.steps < limit := by
  simpa [State.limitReached, hl] using h

/-- Reset registers read 0 (R41). -/
@[simp] theorem State.construct_reg (c : Nat) (f : Byte) (l : Option Nat) (p : Option (List Instr)) (r : RegIdx) :
    (State.construct c f l p).reg r = 0 := by
  simp [State.reg, State.construct]

end Sys2Proof.Machine
end

