-- ==== Sys2Proof/Laws/Memory.lean ====
section
/-!
SUPPORT. The laws of data memory: what a byte read sees after a byte write, what the little-endian accesses read and
write, when an access answers and when it raises, and that every memory operation keeps the canonical form.
-/

namespace Sys2Proof.Machine

/-! ## One byte -/

theorem lookupCell_insertCell (a b : Nat) (v : Byte) (cells : List Host.Cell) :
    lookupCell a (insertCell b v cells) = if a = b then some v else lookupCell a cells := by
  induction cells with
  | nil => simp [insertCell, lookupCell, eq_comm]
  | cons c rest ih =>
    obtain ⟨k, w⟩ := c
    unfold insertCell
    split
    · simp [lookupCell, eq_comm]
    · split
      · rename_i h; subst h; by_cases h : a = b <;> simp [lookupCell, h, eq_comm]
      · rename_i h1 h2
        by_cases h : a = b
        · subst h; simp [lookupCell, ih, Ne.symm h2]
        · simp [lookupCell, ih, h]

theorem lookupCell_eraseCell (a b : Nat) (cells : List Host.Cell) :
    lookupCell a (eraseCell b cells) = if a = b then none else lookupCell a cells := by
  induction cells with
  | nil => simp [eraseCell, lookupCell]
  | cons c rest ih =>
    obtain ⟨k, w⟩ := c
    simp only [eraseCell, List.filter_cons] at ih ⊢
    by_cases hk : k = b
    · subst hk
      by_cases h : a = k
      · subst h; simpa [lookupCell] using ih
      · simpa [lookupCell, h, Ne.symm h] using ih
    · by_cases h : a = b
      · subst h; simpa [lookupCell, hk] using ih
      · simp only [bne_iff_ne, ne_eq, hk, not_false_eq_true, if_true, lookupCell, ih, h, if_false]

/-- The byte law of memory: a write is seen at its own address and nowhere else (R65). -/
theorem Memory.byte_setByte (m : Memory) (a b : Nat) (v : Byte) :
    (m.setByte b v).byte a = if a = b then v else m.byte a := by
  by_cases hv : v = m.fill
  · by_cases h : a = b <;> simp [Memory.byte, Memory.setByte, hv, lookupCell_eraseCell, h]
  · by_cases h : a = b <;> simp [Memory.byte, Memory.setByte, hv, lookupCell_insertCell, h]

@[simp] theorem Memory.setByte_capacity (m : Memory) (a : Nat) (v : Byte) : (m.setByte a v).capacity = m.capacity := rfl

@[simp] theorem Memory.setByte_fill (m : Memory) (a : Nat) (v : Byte) : (m.setByte a v).fill = m.fill := rfl

/-! ## Little-endian accesses -/

@[simp] theorem Memory.writeLE_capacity (n : Nat) : ∀ (m : Memory) (a v : Nat), (m.writeLE a n v).capacity = m.capacity := by
  induction n with
  | zero => intros; rfl
  | succ n ih => intro m a v; simp [Memory.writeLE, ih]

@[simp] theorem Memory.writeLE_fill (n : Nat) : ∀ (m : Memory) (a v : Nat), (m.writeLE a n v).fill = m.fill := by
  induction n with
  | zero => intros; rfl
  | succ n ih => intro m a v; simp [Memory.writeLE, ih]

/-- Outside the bytes it stores to, a store changes nothing (R54). -/
theorem Memory.byte_writeLE_outside (n : Nat) : ∀ (m : Memory) (a v c : Nat), c < a ∨ a + n ≤ c →
    (m.writeLE a n v).byte c = m.byte c := by
  induction n with
  | zero => intros; rfl
  | succ n ih =>
    intro m a v c h
    rw [Memory.writeLE, ih _ _ _ _ (by omega), Memory.byte_setByte, if_neg (by omega)]

/-- Byte `k` of the bytes a store writes holds digit `k` of the value in base 256 (R54). -/
theorem Memory.byte_writeLE_inside (n : Nat) : ∀ (m : Memory) (a v k : Nat), k < n →
    (m.writeLE a n v).byte (a + k) = BitVec.ofNat 8 (v / 256 ^ k) := by
  induction n with
  | zero => intro m a v k h; omega
  | succ n ih =>
    intro m a v k h
    cases k with
    | zero =>
      rw [Memory.writeLE, Memory.byte_writeLE_outside _ _ _ _ _ (by omega)]
      simp [Memory.byte_setByte]
    | succ k =>
      have := ih (m.setByte a (BitVec.ofNat 8 v)) (a + 1) (v / 256) k (by omega)
      rw [Memory.writeLE, show a + (k + 1) = a + 1 + k by omega, this, Nat.div_div_eq_div_mul, Nat.pow_succ,
        Nat.mul_comm]

/-- `n` bytes read as a number below 2^(8n) (R53). -/
theorem Memory.readLE_lt (n : Nat) : ∀ (m : Memory) (a : Nat), m.readLE a n < 256 ^ n := by
  induction n with
  | zero => intros; simp [Memory.readLE]
  | succ n ih =>
    intro m a
    have h1 := ih m (a + 1)
    have h2 := (m.byte a).isLt
    rw [Memory.readLE, Nat.pow_succ]
    omega

/-- A read depends on nothing but the bytes it touches. -/
theorem Memory.readLE_congr (n : Nat) : ∀ (m m' : Memory) (a : Nat), (∀ k < n, m'.byte (a + k) = m.byte (a + k)) →
    m'.readLE a n = m.readLE a n := by
  induction n with
  | zero => intros; rfl
  | succ n ih =>
    intro m m' a h
    have h0 := h 0 (by omega)
    have hr := ih m m' (a + 1) (fun k hk => by have := h (k + 1) (by omega); rwa [show a + 1 + k = a + (k + 1) by omega])
    simp only [Nat.add_zero] at h0
    simp [Memory.readLE, h0, hr]

/-- A store read back with the same width gives the stored value's low bytes (R58). -/
theorem Memory.readLE_writeLE (n : Nat) : ∀ (m : Memory) (a v : Nat), (m.writeLE a n v).readLE a n = v % 256 ^ n := by
  induction n with
  | zero => intros; simp [Memory.readLE, Nat.mod_one]
  | succ n ih =>
    intro m a v
    have h0 := Memory.byte_writeLE_inside (n + 1) m a v 0 (by omega)
    simp only [Nat.add_zero, Nat.pow_zero, Nat.div_one] at h0
    rw [Memory.readLE, h0, Memory.writeLE, ih, Nat.pow_succ, Nat.mul_comm (256 ^ n) 256, Nat.mod_mul]
    simp

/-- The four bytes of a word, written out (R53). -/
theorem Memory.readLE_four (m : Memory) (a : Nat) : m.readLE a 4 = wordAt m a := by
  simp only [Memory.readLE, wordAt, Nat.add_assoc, Nat.reduceAdd]
  omega

theorem wordAt_lt (m : Memory) (a : Nat) : wordAt m a < 2 ^ 32 := by
  rw [← Memory.readLE_four]
  exact Memory.readLE_lt 4 m a

/-! ## When an access answers -/

@[simp] theorem Memory.inBounds_iff (m : Memory) (a n : Nat) : m.inBounds a n = true ↔ a + n ≤ m.capacity := by
  simp [Memory.inBounds]

theorem Memory.read_of_le {m : Memory} {a n : Nat} (h : a + n ≤ m.capacity) :
    m.read a n = .ok (BitVec.ofNat 32 (m.readLE a n)) := by
  simp [Memory.read, h]

theorem Memory.read_of_lt {m : Memory} {a n : Nat} (h : m.capacity < a + n) :
    m.read a n = .error (.outOfBoundsMemoryAccess a n) := by
  simp [Memory.read, h]

theorem Memory.write_of_le {m : Memory} {a n : Nat} (h : a + n ≤ m.capacity) (v : Word) :
    m.write a n v = .ok (m.writeLE a n v.toNat) := by
  simp [Memory.write, h]

theorem Memory.write_of_lt {m : Memory} {a n : Nat} (h : m.capacity < a + n) (v : Word) :
    m.write a n v = .error (.outOfBoundsMemoryAccess a n) := by
  simp [Memory.write, h]

/-- A write that answers was in bounds and stored exactly its bytes. -/
theorem Memory.write_eq_ok {m m' : Memory} {a n : Nat} {v : Word} (h : m.write a n v = .ok m') :
    a + n ≤ m.capacity ∧ m' = m.writeLE a n v.toNat := by
  by_cases hb : a + n ≤ m.capacity
  · rw [Memory.write_of_le hb] at h
    exact ⟨hb, (Except.ok.inj h).symm⟩
  · rw [Memory.write_of_lt (by omega)] at h
    cases h

/-- A read that raises was out of bounds, and the error says where (R52). -/
theorem Memory.read_eq_error {m : Memory} {a n : Nat} {e : RuntimeError} (h : m.read a n = .error e) :
    m.capacity < a + n ∧ e = .outOfBoundsMemoryAccess a n := by
  by_cases hb : a + n ≤ m.capacity
  · rw [Memory.read_of_le hb] at h; cases h
  · rw [Memory.read_of_lt (by omega)] at h
    exact ⟨by omega, (Except.error.inj h).symm⟩

/-- A write that raises was out of bounds, and the error says where (R52). -/
theorem Memory.write_eq_error {m : Memory} {a n : Nat} {v : Word} {e : RuntimeError} (h : m.write a n v = .error e) :
    m.capacity < a + n ∧ e = .outOfBoundsMemoryAccess a n := by
  by_cases hb : a + n ≤ m.capacity
  · rw [Memory.write_of_le hb] at h; cases h
  · rw [Memory.write_of_lt (by omega)] at h
    exact ⟨by omega, (Except.error.inj h).symm⟩

/-- The value of a word read is the number its four bytes make. -/
theorem Memory.read32_of_le {m : Memory} {a : Nat} (h : a + 4 ≤ m.capacity) :
    m.read32 a = .ok (BitVec.ofNat 32 (wordAt m a)) := by
  rw [Memory.read32, Memory.read_of_le h, Memory.readLE_four]

theorem Memory.read32_of_lt {m : Memory} {a : Nat} (h : m.capacity < a + 4) :
    m.read32 a = .error (.outOfBoundsMemoryAccess a 4) := Memory.read_of_lt h

/-! ## The canonical form -/

theorem mem_insertCell {a : Nat} {v : Byte} {cells : List Host.Cell} {c : Host.Cell} (h : c ∈ insertCell a v cells) :
    c = (a, v) ∨ c ∈ cells := by
  induction cells with
  | nil => simpa [insertCell] using h
  | cons d rest ih =>
    obtain ⟨k, w⟩ := d
    unfold insertCell at h
    split at h
    · simpa using h
    · split at h
      · simp only [List.mem_cons] at h ⊢; tauto
      · simp only [List.mem_cons] at h ⊢
        rcases h with h | h
        · tauto
        · have := ih h; tauto

theorem pairwise_insertCell (a : Nat) (v : Byte) (cells : List Host.Cell)
    (h : cells.Pairwise (fun x y => x.1 < y.1)) : (insertCell a v cells).Pairwise (fun x y => x.1 < y.1) := by
  induction cells with
  | nil => simp [insertCell]
  | cons d rest ih =>
    obtain ⟨k, w⟩ := d
    obtain ⟨h1, h2⟩ := List.pairwise_cons.1 h
    unfold insertCell
    split
    · refine List.pairwise_cons.2 ⟨fun c hc => ?_, h⟩
      rcases List.mem_cons.1 hc with rfl | hc
      · assumption
      · have := h1 c hc; simp only at this ⊢; omega
    · split
      · rename_i hk; subst hk; exact List.pairwise_cons.2 ⟨h1, h2⟩
      · refine List.pairwise_cons.2 ⟨fun c hc => ?_, ih h2⟩
        rcases mem_insertCell hc with rfl | hc
        · simp only; omega
        · exact h1 c hc

/-- A byte write below the capacity keeps the canonical form. -/
theorem Memory.wf_setByte {m : Memory} (h : m.wf) {a : Nat} (ha : a < m.capacity) (v : Byte) : (m.setByte a v).wf := by
  obtain ⟨hs, hc, hcap⟩ := h
  by_cases hv : v = m.fill
  · refine ⟨?_, fun c hm => ?_, hcap⟩
    · simpa [Memory.setByte, hv, eraseCell] using hs.filter _
    · simp only [Memory.setByte, hv, if_true, eraseCell] at hm
      exact hc c (List.mem_of_mem_filter hm)
  · refine ⟨?_, fun c hm => ?_, hcap⟩
    · simpa [Memory.setByte, hv] using pairwise_insertCell a v m.cells hs
    · simp only [Memory.setByte, hv, if_false] at hm
      rcases mem_insertCell hm with rfl | hm
      · exact ⟨ha, hv⟩
      · exact hc c hm

theorem Memory.wf_writeLE (n : Nat) : ∀ {m : Memory} (_ : m.wf) {a : Nat} (_ : a + n ≤ m.capacity) (v : Nat),
    (m.writeLE a n v).wf := by
  induction n with
  | zero => intro m h a _ v; exact h
  | succ n ih =>
    intro m h a ha v
    exact ih (Memory.wf_setByte h (by omega) _) (by rw [Memory.setByte_capacity]; omega) _

/-- Every store keeps the canonical form: `write` and with it `write32`, `write16` and `write8`. -/
theorem Memory.wf_write {m m' : Memory} {a n : Nat} {v : Word} (h : m.wf) (hw : m.write a n v = .ok m') : m'.wf := by
  obtain ⟨hb, rfl⟩ := Memory.write_eq_ok hw
  exact Memory.wf_writeLE n h hb _

/-- A freshly constructed memory is canonical whatever its fill (R42). -/
theorem construct_mem_wf {c : Nat} (h : c ≤ Config.maxCapacity) (f : Byte) (l : Option Nat) (p : Option (List Instr)) :
    (State.construct c f l p).mem.wf := by
  simpa [State.construct, Memory.wf] using h

/-- Reset memory is canonical. -/
theorem reset_mem_wf : State.reset.mem.wf := construct_mem_wf (by decide) _ _ _

/-- A freshly constructed memory reads the fill at every address (R42). -/
@[simp] theorem construct_mem_byte (c : Nat) (f : Byte) (l : Option Nat) (p : Option (List Instr)) (a : Nat) :
    (State.construct c f l p).mem.byte a = f := rfl

end Sys2Proof.Machine
end

