-- ==== Sys2Proof/Laws/Exec.lean ====
section
/-!
SUPPORT. What an instruction can do, said once: the inversion lemma of the shared shape `commit`, one lemma for each
shared operation of the families, and `exec_effect`, which lists every effect an instruction can have on the state.
Provers cite `exec_effect` instead of unfolding `exec`.
-/

namespace Sys2Proof.Machine

/-! ## The shared shape -/

@[simp] theorem State.commit_ok {α : Type} (s : State) (v : α) (k : α → State) : s.commit (.ok v) k = .next (k v) := rfl

@[simp] theorem State.commit_error {α : Type} (s : State) (e : RuntimeError) (k : α → State) :
    s.commit (.error e) k = .next (s.raise e) := rfl

/-- Whatever a meaning of the shared shape answers is its one write or the raise of its error. -/
theorem State.commit_next {α : Type} {s t : State} {r : Except RuntimeError α} {k : α → State}
    (h : s.commit r k = .next t) : (∃ v, r = .ok v ∧ t = k v) ∨ (∃ e, r = .error e ∧ t = s.raise e) := by
  cases r with
  | ok v => exact .inl ⟨v, rfl, (Host.Outcome.next.inj h).symm⟩
  | error e => exact .inr ⟨e, rfl, (Host.Outcome.next.inj h).symm⟩

/-- A meaning of the shared shape always answers a next state. -/
theorem State.commit_total {α : Type} (s : State) (r : Except RuntimeError α) (k : α → State) :
    ∃ t, s.commit r k = .next t := by
  cases r <;> exact ⟨_, rfl⟩

/-! ## The memory operand -/

/-- A source in RegisterIndirect mode raises only out of bounds, at its own address. -/
theorem srcIndirect_error {r : RegIdx} {s : State} {e : RuntimeError} (h : srcIndirect r s = .error e) :
    s.mem.capacity < eaIndirect r s + 4 ∧ e = .outOfBoundsMemoryAccess (eaIndirect r s) 4 := Memory.read_eq_error h

/-- A source in BaseOffset mode raises only out of bounds, at the unwrapped sum (R125). -/
theorem srcBaseOffset_error {r : RegIdx} {o : Word} {s : State} {e : RuntimeError} (h : srcBaseOffset r o s = .error e) :
    s.mem.capacity < eaBaseOffset r o s + 4 ∧ e = .outOfBoundsMemoryAccess (eaBaseOffset r o s) 4 :=
  Memory.read_eq_error h

/-! ## Everything an instruction can do -/

/-- The effects of executing instruction `i` in `s`, by the state it leaves. -/
inductive Effect (i : Instr) (s : State) : State → Prop where
  /-- SET, SUB and MUL write the register their dest field names. -/
  | write (v : Word) (op : i.opcode = .set ∨ i.opcode = .sub ∨ i.opcode = .mul) : Effect i s (s.setReg i.form.dest v)
  /-- SD stores the register its dest field names at its address. -/
  | store (addr : Nat) (op : i.opcode = .sd) (at_addr : Instr.address i s = some addr)
      (fits : addr + 4 ≤ s.mem.capacity) :
      Effect i s (s.setMem (s.mem.writeLE addr 4 (s.reg i.form.dest).toNat))
  /-- CMP writes EQ or NE. -/
  | compare (code : CmpCode) (op : i.opcode = .cmp) (eqOrNe : code = .eq ∨ code = .ne) : Effect i s (s.setCmp code.byte)
  /-- JMP, and IFN on EQ, write pc and set the mark. -/
  | jump (target : Word) (op : i.opcode = .jmp ∨ i.opcode = .ifn ∧ flagIsEq s.cmp = true) :
      Effect i s (s.jumpTo (targetIndex target))
  /-- IFN on another code does nothing. -/
  | fallThrough (op : i.opcode = .ifn) (flag : flagIsEq s.cmp = false) : Effect i s s
  /-- HLT stops the run. -/
  | halt (form : Form) (isHlt : i = .hlt form) : Effect i s s.halt
  /-- A memory access out of bounds raises, with the unwrapped address and width 4. -/
  | outOfBounds (addr : Nat) (at_addr : Instr.address i s = some addr) (beyond : s.mem.capacity < addr + 4) :
      Effect i s (s.raise (.outOfBoundsMemoryAccess addr 4))
  /-- A reserved opcode raises. -/
  | unimplemented (op : i.opcode.implemented = false) : Effect i s (s.raise (.unimplementedOpcode i.opcode))

section Families

variable {i : Instr} {s t : State}

/-- SET with its source resolved: the write, or the raise its source made. -/
theorem setFrom_effect {d : RegIdx} {src : Except RuntimeError Word} (h : setFrom d src s = .next t)
    (hop : i.opcode = .set) (hd : i.form.dest = d) (he : ∀ e, src = .error e → Effect i s (s.raise e)) :
    Effect i s t := by
  rcases State.commit_next h with ⟨v, _, rfl⟩ | ⟨e, hs, rfl⟩
  · exact hd ▸ Effect.write v (.inl hop)
  · exact he e hs

/-- SUB with its second operand resolved: the write, or the raise its operand made. -/
theorem subFrom_effect {d a : RegIdx} {src : Except RuntimeError Word} (h : subFrom d a src s = .next t)
    (hop : i.opcode = .sub) (hd : i.form.dest = d) (he : ∀ e, src = .error e → Effect i s (s.raise e)) :
    Effect i s t := by
  rcases State.commit_next h with ⟨v, _, rfl⟩ | ⟨e, hs, rfl⟩
  · exact hd ▸ Effect.write _ (.inr (.inl hop))
  · exact he e hs

/-- MUL with its second operand resolved: the write, or the raise its operand made. -/
theorem mulFrom_effect {d a : RegIdx} {src : Except RuntimeError Word} (h : mulFrom d a src s = .next t)
    (hop : i.opcode = .mul) (hd : i.form.dest = d) (he : ∀ e, src = .error e → Effect i s (s.raise e)) :
    Effect i s t := by
  rcases State.commit_next h with ⟨v, _, rfl⟩ | ⟨e, hs, rfl⟩
  · exact hd ▸ Effect.write _ (.inr (.inr hop))
  · exact he e hs

/-- SD with its address resolved: the store, or the raise. -/
theorem storeAt_effect {addr : Nat} {r : RegIdx} (h : storeAt addr r s = .next t) (hop : i.opcode = .sd)
    (hd : i.form.dest = r) (ha : Instr.address i s = some addr) : Effect i s t := by
  rcases State.commit_next h with ⟨m, hm, rfl⟩ | ⟨e, hs, rfl⟩
  · obtain ⟨hb, rfl⟩ := Memory.write_eq_ok hm
    exact hd ▸ Effect.store addr hop ha hb
  · obtain ⟨hb, rfl⟩ := Memory.write_eq_error hs
    exact Effect.outOfBounds addr ha hb

/-- A jump whose target is a register or a value is taken. -/
theorem jumpVia_effect {v : Word} (h : jumpVia (.ok v) s = .next t)
    (hop : i.opcode = .jmp ∨ i.opcode = .ifn ∧ flagIsEq s.cmp = true) : Effect i s t := by
  obtain rfl := Host.Outcome.next.inj h
  exact Effect.jump v hop

/-- IFN whose target is a register or a value: taken on EQ, else nothing. -/
theorem jumpIfEq_effect {v : Word} (h : jumpIfEq (.ok v) s = .next t) (hop : i.opcode = .ifn) : Effect i s t := by
  unfold jumpIfEq at h
  split at h
  · exact jumpVia_effect h (.inr ⟨hop, ‹_›⟩)
  · obtain rfl := Host.Outcome.next.inj h
    exact Effect.fallThrough hop (Bool.eq_false_iff.2 ‹¬ _›)

/-- The raise of a reserved opcode. -/
theorem raiseUnimplemented_effect {op : Opcode} (h : raiseUnimplemented op s = .next t) (hop : i.opcode = op)
    (hr : op.implemented = false) : Effect i s t := by
  obtain rfl := Host.Outcome.next.inj h
  subst hop
  exact Effect.unimplemented hr

end Families

/-- Everything an instruction can do: if `exec i s` answers the next state `t`, then `t` is one of the listed effects. -/
theorem exec_effect {i : Instr} {s t : State} (h : exec i s = .next t) : Effect i s t := by
  cases i with
  | setR d a b => exact setFrom_effect (d := d) (src := .ok (s.reg b)) h rfl rfl nofun
  | setI d a v | setX d a v => exact setFrom_effect (d := d) (src := .ok v) h rfl rfl nofun
  | subR d a b => exact subFrom_effect (d := d) (a := a) (src := .ok (s.reg b)) h rfl rfl nofun
  | subI d a v | subX d a v => exact subFrom_effect (d := d) (a := a) (src := .ok v) h rfl rfl nofun
  | mulR d a b => exact mulFrom_effect (d := d) (a := a) (src := .ok (s.reg b)) h rfl rfl nofun
  | mulI d a v | mulX d a v => exact mulFrom_effect (d := d) (a := a) (src := .ok v) h rfl rfl nofun
  | setM d a b =>
    refine setFrom_effect h rfl rfl (fun e he => ?_)
    obtain ⟨hb, rfl⟩ := srcIndirect_error he
    exact .outOfBounds _ (by simp [Instr.address, Instr.opcode, Instr.form, Form.loadAddress]) hb
  | setB d a b o =>
    refine setFrom_effect h rfl rfl (fun e he => ?_)
    obtain ⟨hb, rfl⟩ := srcBaseOffset_error he
    exact .outOfBounds _ (by simp [Instr.address, Instr.opcode, Instr.form, Form.loadAddress]) hb
  | subM d a b =>
    refine subFrom_effect h rfl rfl (fun e he => ?_)
    obtain ⟨hb, rfl⟩ := srcIndirect_error he
    exact .outOfBounds _ (by simp [Instr.address, Instr.opcode, Instr.form, Form.loadAddress]) hb
  | subB d a b o =>
    refine subFrom_effect h rfl rfl (fun e he => ?_)
    obtain ⟨hb, rfl⟩ := srcBaseOffset_error he
    exact .outOfBounds _ (by simp [Instr.address, Instr.opcode, Instr.form, Form.loadAddress]) hb
  | mulM d a b =>
    refine mulFrom_effect h rfl rfl (fun e he => ?_)
    obtain ⟨hb, rfl⟩ := srcIndirect_error he
    exact .outOfBounds _ (by simp [Instr.address, Instr.opcode, Instr.form, Form.loadAddress]) hb
  | mulB d a b o =>
    refine mulFrom_effect h rfl rfl (fun e he => ?_)
    obtain ⟨hb, rfl⟩ := srcBaseOffset_error he
    exact .outOfBounds _ (by simp [Instr.address, Instr.opcode, Instr.form, Form.loadAddress]) hb
  | sdI d a v | sdX d a v | sdM d a b | sdB d a b o =>
    exact storeAt_effect h rfl rfl (by simp [Instr.address, Instr.opcode, Instr.form, Form.storeAddress])
  | cmpR d a b =>
    obtain rfl := Host.Outcome.next.inj h
    refine .compare _ rfl ?_
    unfold compareCode
    split <;> simp
  | jmpR d a b => exact jumpVia_effect (v := s.reg b) h (.inl rfl)
  | jmpI d a v | jmpX d a v => exact jumpVia_effect (v := v) h (.inl rfl)
  | ifnR d a b => exact jumpIfEq_effect (v := s.reg b) h rfl
  | ifnI d a v | ifnX d a v => exact jumpIfEq_effect (v := v) h rfl
  | hlt f =>
    obtain rfl := Host.Outcome.next.inj h
    exact .halt f rfl
  | psh f | pop f | mov f | add f | div f | andOp f | orOp f | xor f | notOp f | sl f | sr f | ld f | sd16 f | ld16 f
  | sd8 f | ld8 f | ld16s f | ld8s f | ifOp f | ifg f | ifl f | ife f | ifne f | call f | ret f =>
    exact raiseUnimplemented_effect h rfl rfl

/-- IFN with its target resolved always answers a next state. -/
theorem jumpIfEq_total (src : Except RuntimeError Word) (s : State) : ∃ t, jumpIfEq src s = .next t := by
  unfold jumpIfEq
  split
  · exact State.commit_total ..
  · exact ⟨_, rfl⟩

/-- Every instruction answers a next state: the runtime errors are next states too (R236). -/
theorem exec_total (i : Instr) (s : State) : ∃ t, exec i s = .next t := by
  cases i with
  | setM | setB | subM | subB | mulM | mulB | sdI | sdX | sdM | sdB => exact State.commit_total ..
  | ifnR | ifnI | ifnX => exact jumpIfEq_total ..
  | setR | setI | setX | subR | subI | subX | mulR | mulI | mulX | jmpR | jmpI | jmpX | cmpR | hlt | psh | pop | mov
  | add | div | andOp | orOp | xor | notOp | sl | sr | ld | sd16 | ld16 | sd8 | ld8 | ld16s
  | ld8s | ifOp | ifg | ifl | ife | ifne | call | ret => exact ⟨_, rfl⟩

/-! ## The step -/

/-- What one step can do: if `step s` answers `t`, then one of these four cases holds (R212). -/
theorem step_cases {s t : State} (h : step s = .next t) :
    (s.status ≠ .running ∧ t = s) ∨
    (s.status = .running ∧ s.limitReached = true ∧ t = s.exceedLimit) ∨
    (s.status = .running ∧ s.limitReached = false ∧ s.fetch = none ∧ t = s.raise (.programCounterOverrun s.pc)) ∨
    (∃ i u, s.status = .running ∧ s.limitReached = false ∧ s.fetch = some i ∧ Effect i s.beginInstr u ∧
      t = u.retire) := by
  unfold step stepWith at h
  split at h
  · rename_i hr
    split at h
    · exact .inr (.inl ⟨hr, ‹_›, (Host.Outcome.next.inj h).symm⟩)
    · rename_i hl
      have hl : s.limitReached = false := by simpa using hl
      split at h
      · exact .inr (.inr (.inl ⟨hr, hl, ‹_›, (Host.Outcome.next.inj h).symm⟩))
      · rename_i i hf
        obtain ⟨u, hu⟩ := exec_total i s.beginInstr
        rw [hu] at h
        exact .inr (.inr (.inr ⟨i, u, hr, hl, hf, exec_effect hu, (Host.Outcome.next.inj h).symm⟩))
  · exact .inl ⟨‹_›, (Host.Outcome.next.inj h).symm⟩

@[simp] theorem State.retire_of_running {s : State} (h : s.status = .running) : s.retire = s.advance := by
  simp [State.retire, h]

@[simp] theorem State.retire_of_stopped {s : State} (h : s.status ≠ .running) : s.retire = s := by
  simp [State.retire, h]

end Sys2Proof.Machine
end

