-- ==== Sys2Proof/Tests/Slice0.lean ====
section
/-!
SUPPORT. The model's own tests. Every expected value is from spec/95_test_vectors.md or worked out by hand from the rule
named, and the vector is named at the theorem. First the smoke test of WellFormed and the decoding, then one-step tests
of the instructions, then memory, the sequencer and the host interface, and last, for each statement with hypotheses,
a witness that meets them (theorems `wit_…`).
-/

namespace Sys2Proof.Tests

open Sys2Proof Sys2Proof.Machine

/-! ## WellFormed: each check refuses an ill-formed term -/

theorem test_wf_literal_fits : (Instr.setI 0 0 15).wf = true ∧ (Instr.setI 0 0 16).wf = false := by decide
theorem test_wf_offset_fits : (Instr.sdB 5 0 4 15).wf = true ∧ (Instr.sdB 5 0 4 16).wf = false := by decide
theorem test_wf_of_any_form : (Instr.hlt (.i 0 0 16)).wf = false ∧ (Instr.ret (.b 0 0 0 0x10000)).wf = false := by
  decide
theorem test_wf_extension_is_any_word : (Instr.setX 0 0 0xFFFFFFFF).wf = true := by decide

/-! ## Fields (vectors X1 .. X8) -/

/-- The six fields of a word: opcode byte, mode, dest, src1, bits 7..4, bits 3..0. -/
def fieldsOf (w : Word) : List Nat :=
  [(opcodeField w).toNat, (modeField w).toNat, (arguments w).toNat, (destField w).toNat, (src1Field w).toNat,
    (field74 w).toNat, (field30 w).toNat]

theorem test_fields_all_ones : fieldsOf 0xFFFFFFFF#32 = [0xFF, 3, 0xFFFFF, 15, 15, 15, 15] := by decide
theorem test_fields_mode_mask : fieldsOf 0x00F00000#32 = [0, 3, 0, 0, 0, 0, 0] := by decide
theorem test_fields_shifted_out : fieldsOf 0x00300000#32 = [0, 0, 0, 0, 0, 0, 0] := by decide
theorem test_fields_sign_bit : fieldsOf 0x80000000#32 = [0x80, 0, 0, 0, 0, 0, 0] := by decide
theorem test_fields_mixed : fieldsOf 0x12345678#32 = [0x12, 0, 0x45678, 5, 6, 7, 8] := by decide

/-! ## Decoding: the words of section 2.2 and 2.3 of the vectors -/

/-- The decoder's answer on a program, as an option. -/
def decoded (ws : List Word) : Option (List Instr) := (decode opc ws).toOption

/-- The decoder's rejection of a program. -/
def rejected (ws : List Word) : Option DecodeError :=
  match decode opc ws with
  | .ok _ => none
  | .error e => some e

theorem test_decode_set :
    decoded [0x01003440#32, 0x0140F0F0#32, 0x01400001#32, 0xFFFFFFFF#32, 0x01803040#32, 0x01C0304F#32] =
      some [.setR 3 4 4, .setI 15 0 15, .setX 0 0 0xFFFFFFFF, .setM 3 0 4, .setB 3 0 4 15] := by decide
theorem test_decode_sub :
    decoded [0x02002010#32, 0x02400010#32, 0x02402001#32, 0x10#32, 0x02802010#32, 0x02C02014#32] =
      some [.subR 2 0 1, .subI 0 0 1, .subX 2 0 0x10, .subM 2 0 1, .subB 2 0 1 4] := by decide
theorem test_decode_mul :
    decoded [0x03002010#32, 0x03402040#32, 0x03402001#32, 0x10001#32, 0x03802010#32, 0x03C02014#32] =
      some [.mulR 2 0 1, .mulI 2 0 4, .mulX 2 0 0x10001, .mulM 2 0 1, .mulB 2 0 1 4] := by decide
theorem test_decode_sd :
    decoded [0x04400080#32, 0x04402201#32, 0x2000#32, 0x04800010#32, 0x04C05548#32] =
      some [.sdI 0 0 8, .sdX 2 2 0x2000, .sdM 0 0 1, .sdB 5 5 4 8] := by decide
theorem test_decode_control :
    decoded [0x05007270#32, 0x06005550#32, 0x06400080#32, 0x06400001#32, 24#32, 0x07005550#32, 0x07400080#32,
      0x07400001#32, 24#32] =
      some [.cmpR 7 2 7, .jmpR 5 5 5, .jmpI 0 0 8, .jmpX 0 0 24, .ifnR 5 5 5, .ifnI 0 0 8, .ifnX 0 0 24] := by decide
/-- D13, D15 and HLT2: HLT decodes in every format. -/
theorem test_decode_hlt :
    decoded [0x08000000#32, 0x08FFFFFE#32, 0x08400001#32, 0x12345678#32, 0x08800000#32, 0x083FFFFF#32] =
      some [.hlt (.r 0 0 0), .hlt (.b 15 15 15 14), .hlt (.x 0 0 0x12345678), .hlt (.m 0 0 0),
        .hlt (.r 15 15 15)] := by decide
/-- Section 2.11: the 25 reserved words. -/
theorem test_decode_reserved :
    (decoded ((List.range 25).map (fun k => BitVec.ofNat 32 ((9 + k) * 2 ^ 24)))).map (·.map Instr.opcode) =
      some [.psh, .pop, .mov, .add, .div, .andOp, .orOp, .xor, .notOp, .sl, .sr, .ld, .sd16, .ld16, .sd8, .ld8, .ld16s,
        .ld8s, .ifOp, .ifg, .ifl, .ife, .ifne, .call, .ret] := by decide
theorem test_decode_reserved_forms :
    decoded [0x0CC01234#32, 0x21400001#32, 0x0#32] = some [.add (.b 1 2 3 4), .ret (.x 0 0 0)] := by decide
/-- D8, D9, D10, D11, D12: the extension word is data, does not chain, and a stray bit 0 takes a word. -/
theorem test_decode_extension :
    decoded [0x01400001#32, 0x01400001#32, 0x08000000#32] = some [.setX 0 0 0x01400001, .hlt (.r 0 0 0)] ∧
    decoded [0x01400001#32, 0#32, 0x08000000#32] = some [.setX 0 0 0, .hlt (.r 0 0 0)] ∧
    decoded [0x014000F1#32, 7#32] = some [.setX 0 0 7] ∧
    decoded [0x0140005E#32] = some [.setI 0 0 5] ∧
    decoded [0x01400051#32, 0x01401030#32, 0x08000000#32] = some [.setX 0 0 0x01401030, .hlt (.r 0 0 0)] ∧
    decoded [] = some [] := by decide
/-- D17 .. D20, D31. -/
theorem test_reject_opcode :
    rejected [0#32] = some ⟨.invalidOpcode 0, 0, 0⟩ ∧
    rejected [0x08000000#32, 0#32] = some ⟨.invalidOpcode 0, 1, 0⟩ ∧
    rejected [0xFF000000#32] = some ⟨.invalidOpcode 0xFF, 0, 0xFF000000⟩ ∧
    rejected [0x22000000#32] = some ⟨.invalidOpcode 0x22, 0, 0x22000000⟩ ∧
    rejected [0x00400001#32] = some ⟨.invalidOpcode 0, 0, 0x00400001⟩ := by decide
/-- D21 .. D27, D30. -/
theorem test_reject_mode :
    ([0x04000010#32, 0x05401010#32, 0x05801010#32, 0x05C01010#32, 0x06801110#32, 0x06C01110#32, 0x07801110#32,
      0x07C01110#32, 0x05400001#32] : List Word).map (fun w => (rejected [w]).map (·.kind)) =
      ([0, 1, 2, 3, 2, 3, 2, 3, 1] : List (BitVec 2)).map (fun b => some (.invalidMode b)) := by decide
/-- D28, D29. -/
theorem test_reject_truncated :
    rejected [0x01400001#32] = some ⟨.truncatedExtension, 0, 0x01400001⟩ ∧
    rejected [0x08000000#32, 0x01400001#32] = some ⟨.truncatedExtension, 1, 0x01400001⟩ := by decide
/-- Section 2.3, read the other way. -/
theorem test_encode :
    encodeProgram opc [.setB 3 0 4 15, .subX 2 0 0x10, .sdX 2 2 0x2000, .cmpR 7 2 7, .jmpI 0 0 8, .ifnR 5 5 5,
      .hlt (.r 0 0 0), .ret (.r 0 0 0)] =
      [0x01C0304F#32, 0x02402001#32, 0x10#32, 0x04402201#32, 0x2000#32, 0x05007270#32, 0x06400080#32, 0x07005550#32,
        0x08000000#32, 0x21000000#32] := by decide
/-- Section 2.3, its assembly column against its words column. -/
theorem test_assembly :
    (([.setReg 3 4, .setLit 15 15 false, .setLit 0 0xFFFFFFFF true, .setInd 3 4, .setOff 3 4 15, .subReg 2 0 1,
      .subLit 0 0 1 false, .subLit 2 0 0x10 true, .subInd 2 0 1, .subOff 2 0 1 4, .mulReg 2 0 1, .mulLit 2 0 4 false,
      .mulLit 2 0 0x10001 true, .mulInd 2 0 1, .mulOff 2 0 1 4, .sdLit 0 8 false, .sdLit 2 0x2000 true, .sdInd 0 1,
      .sdOff 5 4 8, .cmpReg 0 1, .cmpReg 2 7, .jmpReg 5, .jmpLit 8 false, .jmpLit 24 true, .ifnReg 5, .ifnLit 8 false,
      .ifnLit 24 true, .alone .hlt, .alone .ret] : List AsmLine).filterMap AsmLine.assemble).map (encode opc) =
    [[0x01003440#32], [0x0140F0F0#32], [0x01400001#32, 0xFFFFFFFF#32], [0x01803040#32], [0x01C0304F#32],
      [0x02002010#32], [0x02400010#32], [0x02402001#32, 0x10#32], [0x02802010#32], [0x02C02014#32], [0x03002010#32],
      [0x03402040#32], [0x03402001#32, 0x10001#32], [0x03802010#32], [0x03C02014#32], [0x04400080#32],
      [0x04402201#32, 0x2000#32], [0x04800010#32], [0x04C05548#32], [0x05001010#32], [0x05007270#32], [0x06005550#32],
      [0x06400080#32], [0x06400001#32, 24#32], [0x07005550#32], [0x07400080#32], [0x07400001#32, 24#32],
      [0x08000000#32], [0x21000000#32]] := by decide
/-- A literal above 15 takes the extension word without `#!`; a mnemonic that needs operands does not stand alone. -/
theorem test_assembly_range : (AsmLine.setLit 0 16 false).assemble = some (.setX 0 0 16) ∧
    (AsmLine.alone .jmp).assemble = none := by decide
/-- D7 through the streaming decoder: the first two words make one instruction, nothing stays pending. -/
theorem test_stream :
    (streamFrom opc none 0 [0x01400001#32, 0xFF#32, 0x08000000#32]).toOption =
      some ([.setX 0 0 0xFF, .hlt (.r 0 0 0)], none) ∧
    (feedWord opc none 4 0x01400001#32).toOption = some (none, some ⟨.set, 0, 0, 4, 0x01400001⟩) := by decide
/-- P1's file bytes, with three bytes after them that make no word. -/
theorem test_file_bytes :
    wordsOfFile [0x01#8, 0x40#8, 0x00#8, 0x50#8, 0x01#8, 0x40#8, 0x10#8, 0x30#8, 0x02#8, 0x00#8, 0x20#8, 0x10#8, 0x08#8,
      0#8, 0#8, 0#8, 1#8, 2#8, 3#8] = [0x01400050#32, 0x01401030#32, 0x02002010#32, 0x08000000#32] := by decide
/-- Two extended instructions: instruction 2 comes from word 3 and instruction 4 from word 6 (P5's mapping). -/
theorem test_word_index :
    (List.range 5).map (wordIndex [.setR 0 0 0, .setX 0 0 1, .setR 0 0 0, .jmpX 0 0 8, .hlt (.r 0 0 0)]) =
      [0, 1, 3, 4, 6] := by decide
/-- The host's question: one-word and two-word rows. -/
theorem test_table_word :
    decodeTableWord 32 0x01003440 = some (.setR 3 4 4) ∧ decodeTableWord 32 0x01400001 = some (.setX 0 0 0) ∧
    decodeTableWord 64 0x000000FF01400001 = some (.setX 0 0 0xFF) ∧ decodeTableWord 32 0x04000010 = none := by decide

/-! ## One step of each instruction -/

/-- The reset state with some registers preset. -/
def preset (rs : List (RegIdx × Word)) : State := rs.foldl (fun s p => s.setReg p.1 p.2) State.reset

/-- Bytes put into a state's memory from an address on. -/
def poke (s : State) (a : Nat) (bytes : List Byte) : State :=
  s.setMem ((List.range bytes.length).foldl (fun m k => m.setByte (a + k) (bytes.getD k 0)) s.mem)

/-- A state with a program of raw words loaded and running. -/
def running (s : State) (ws : List Word) : State :=
  { s with program := some ((decode opc ws).toOption.getD []), status := .running }

/-- The state after one step of a program of raw words; the state itself if the step gave none. -/
def after (s : State) (ws : List Word) : State :=
  match step (running s ws) with
  | .next t => t
  | .fault _ => s
  | .refused _ => s

/-- The bytes of a state's memory from an address on. -/
def peek (s : State) (a n : Nat) : List Byte := (List.range n).map (fun k => s.mem.byte (a + k))

/-- Memory with the word 0xDEADBEEF at 0x100, the "Mem as SET8" of the vectors. -/
def beef (rs : List (RegIdx × Word)) : State := poke (preset rs) 0x100 [0xEF#8, 0xBE#8, 0xAD#8, 0xDE#8]

/-- Memory with the word 0x01020304 at 0x100, the "Mem as SUB11" of the vectors. -/
def rising (rs : List (RegIdx × Word)) : State := poke (preset rs) 0x100 [4#8, 3#8, 2#8, 1#8]

/-- SET1, SET17: the register copied is the one in bits 7..4. -/
theorem test_setR : (after (preset [(4, 0x12345678)]) [0x01003440#32]).reg 3 = 0x12345678#32 ∧
    (after (preset [(4, 1), (5, 2)]) [0x01003540#32]).reg 3 = 1#32 := by decide
/-- SET4: the literal is zero-extended. -/
theorem test_setI : (after (preset []) [0x0140F0F0#32]).reg 15 = 0xF#32 := by decide
/-- SET6. -/
theorem test_setX : (after (preset []) [0x01400001#32, 0xFFFFFFFF#32]).reg 0 = 0xFFFFFFFF#32 := by decide
/-- SET9: the address is read before the write. -/
theorem test_setM : (after (beef [(4, 0x100)]) [0x01804040#32]).reg 4 = 0xDEADBEEF#32 := by decide
/-- SET11, with the fill's place taken from memory itself: a misaligned read. -/
theorem test_setM_misaligned : (after (beef [(4, 0x101)]) [0x01803040#32]).reg 3 =
    (State.reset.mem.byte 0x104).setWidth 32 <<< 24 ||| 0x00DEADBE#32 := by decide
/-- SET14: out of bounds, nothing written, pc kept. -/
theorem test_setM_faults :
    (after (preset [(4, 0x00FFFFFC), (3, 7)]) [0x01803040#32]).status = .fault (.outOfBoundsMemoryAccess 0x00FFFFFC 4) 0 ∧
    (after (preset [(4, 0x00FFFFFC), (3, 7)]) [0x01803040#32]).reg 3 = 7#32 ∧
    (after (preset [(4, 0x00FFFFFC), (3, 7)]) [0x01803040#32]).pc = 0#32 := by decide
/-- SET10. -/
theorem test_setB : (after (beef [(4, 0xF1)]) [0x01C0304F#32]).reg 3 = 0xDEADBEEF#32 := by decide
/-- SET15: the sum does not wrap. -/
theorem test_setB_no_wrap : (after (preset [(1, 0xFFFFFFFF)]) [0x01C02011#32]).status =
    .fault (.outOfBoundsMemoryAccess 0x100000000 4) 0 := by decide

/-- SUB2: it wraps, and no flag is written; pc moves on. -/
theorem test_subR : (after (preset [(0, 3), (1, 5)]) [0x02002010#32]).reg 2 = 0xFFFFFFFE#32 ∧
    (after (preset [(0, 3), (1, 5)]) [0x02002010#32]).pc = 1#32 ∧
    (after (preset [(0, 3), (1, 5)]) [0x02002010#32]).arith = 0#8 := by decide
/-- SUB8. -/
theorem test_subI : (after (preset [(0, 20)]) [0x024020F0#32]).reg 2 = 5#32 := by decide
/-- SUB10. -/
theorem test_subX : (after (preset [(0, 7)]) [0x02402001#32, 0xFFFFFFFF#32]).reg 2 = 8#32 := by decide
/-- SUB11. -/
theorem test_subM : (after (rising [(0, 0x11223344), (1, 0x100)]) [0x02802010#32]).reg 2 = 0x10203040#32 := by decide
/-- SUB12. -/
theorem test_subB : (after (rising [(0, 0x11223344), (1, 0xFC)]) [0x02C02014#32]).reg 2 = 0x10203040#32 := by decide

/-- MUL5. -/
theorem test_mulR : (after (preset [(0, 0x12345678), (1, 0x9ABCDEF0)]) [0x03002010#32]).reg 2 = 0x242D2080#32 := by
  decide
/-- MUL9. -/
theorem test_mulI : (after (preset [(0, 0x40000001)]) [0x03402040#32]).reg 2 = 4#32 := by decide
/-- MUL10. -/
theorem test_mulX : (after (preset [(0, 0xFFFF)]) [0x03402001#32, 0x10001#32]).reg 2 = 0xFFFFFFFF#32 := by decide
/-- MUL11. -/
theorem test_mulM : (after (rising [(0, 3), (1, 0x100)]) [0x03802010#32]).reg 2 = 0x0306090C#32 := by decide
/-- MUL12, MUL13. -/
theorem test_mulB : (after (rising [(0, 3), (1, 0xFC)]) [0x03C02014#32]).reg 2 = 0x0306090C#32 ∧
    (after (preset [(1, 0xFFFFFFFC)]) [0x03C02014#32]).status = .fault (.outOfBoundsMemoryAccess 0x100000000 4) 0 := by
  decide

/-- SD2. -/
theorem test_sdI : peek (after (preset [(0, 0x11223344)]) [0x04400080#32]) 8 4 = [0x44#8, 0x33#8, 0x22#8, 0x11#8] := by
  decide
/-- SD3. -/
theorem test_sdX : peek (after (preset [(2, 1)]) [0x04402201#32, 0x2000#32]) 0x2000 4 = [1#8, 0#8, 0#8, 0#8] := by
  decide
/-- SD1 and SD7: the store, and the one that is out of bounds and writes nothing. -/
theorem test_sdM :
    peek (after (preset [(0, 0xDEADBEEF), (1, 0x2000)]) [0x04800010#32]) 0x2000 4 = [0xEF#8, 0xBE#8, 0xAD#8, 0xDE#8] ∧
    (after (preset [(0, 7), (1, 0x00FFFFFC)]) [0x04800010#32]).status =
      .fault (.outOfBoundsMemoryAccess 0x00FFFFFC 4) 0 ∧
    (after (preset [(0, 7), (1, 0x00FFFFFC)]) [0x04800010#32]).mem = State.reset.mem := by decide
/-- SD4. -/
theorem test_sdB : peek (after (preset [(5, 0xCAFEF00D), (4, 0x1000)]) [0x04C05548#32]) 0x1008 4 =
    [0x0D#8, 0xF0#8, 0xFE#8, 0xCA#8] := by decide

/-- CMP1, CMP3, CMP4: equal, greater and less; the last two both record NE. -/
theorem test_cmpR : (after ((preset [(0, 10), (1, 10)]).setCmp 1) [0x05001010#32]).cmp = 0#8 ∧
    (after (preset [(0, 5), (1, 3)]) [0x05001010#32]).cmp = 1#8 ∧
    (after (preset [(0, 3), (1, 5)]) [0x05001010#32]).cmp = 1#8 := by decide
/-- CMP8: the operands are src1 and src2. -/
theorem test_cmpR_operands : (after (preset [(0, 1), (1, 1), (9, 2)]) [0x05009010#32]).cmp = 0#8 := by decide

/-- JMP7. -/
theorem test_jmpR : (after (preset [(5, 12)]) [0x06005550#32]).pc = 3#32 := by decide
/-- JMP2, JMP3. -/
theorem test_jmpI : (after (preset []) [0x064000F0#32]).pc = 3#32 ∧ (after (preset []) [0x06400000#32]).pc = 0#32 := by
  decide
/-- JMP5, JMP6. -/
theorem test_jmpX : (after (preset []) [0x06400001#32, 27#32]).pc = 6#32 ∧
    (after (preset []) [0x06400001#32, 0xFFFFFFFF#32]).pc = 0x3FFFFFFF#32 := by decide
/-- IFN5. -/
theorem test_ifnR : (after (preset [(5, 13)]) [0x07005550#32]).pc = 3#32 := by decide
/-- IFN1, IFN7. -/
theorem test_ifnI : (after (preset []) [0x07400080#32]).pc = 2#32 ∧
    (after ((preset []).setCmp 6) [0x07400080#32]).pc = 1#32 := by decide
/-- IFN3, IFN4. -/
theorem test_ifnX : (after (preset []) [0x07400001#32, 24#32]).pc = 6#32 ∧
    (after ((preset []).setCmp 1) [0x07400001#32, 24#32]).pc = 1#32 := by decide
/-- HLT1, HLT2, HLT3. -/
theorem test_hlt : after (preset []) [0x08000000#32] = { running (preset []) [0x08000000#32] with status := .halted } ∧
    (after (preset []) [0x08FFFFFE#32]).status = .halted ∧ (after (preset []) [0x08400001#32, 5#32]).status = .halted ∧
    (after ((preset []).setPc 3) (List.replicate 4 0x08000000#32)).pc = 3#32 := by decide

/-- The opcode a one-word program from reset stops on. -/
def reservedStop (w : Word) : Option Opcode :=
  match (after (preset []) [w]).status with
  | .fault (.unimplementedOpcode op) 0 => some op
  | _ => none

/-- Section 2.11: the 25 reserved words, run. -/
theorem test_reserved_run :
    (List.range 25).map (fun k => reservedStop (BitVec.ofNat 32 ((9 + k) * 2 ^ 24))) =
      ([.psh, .pop, .mov, .add, .div, .andOp, .orOp, .xor, .notOp, .sl, .sr, .ld, .sd16, .ld16, .sd8, .ld8, .ld16s,
        .ld8s, .ifOp, .ifg, .ifl, .ife, .ifne, .call, .ret] : List Opcode).map some := by decide
theorem test_reserved_keeps : after (preset [(3, 0xFFFFFFFF)]) [0x0CC01234#32] =
    { running (preset [(3, 0xFFFFFFFF)]) [0x0CC01234#32] with status := .fault (.unimplementedOpcode .add) 0 } := by
  decide

/-! ## Memory accessors (section 2.4) -/

/-- A memory of a given capacity and a fill, nothing written. -/
def blank (capacity : Nat) (fill : Byte) : Memory := ⟨capacity, fill, []⟩

/-- M1, M2, M3, M6. -/
theorem test_write32 :
    ((blank 0x00FFFFFF 7).write32 0x100 0xDEADBEEF).toOption.map (fun m =>
      [m.read32 0x100, m.read16 0x100, m.read16 0x102, m.read16 0x101, m.read8 0x100, m.read8 0x103].map (·.toOption)) =
      some [some 0xDEADBEEF, some 0xBEEF, some 0xDEAD, some 0xADBE, some 0xEF, some 0xDE] := by decide
/-- M4, M5: the narrow writes leave the next byte as it was. -/
theorem test_write_narrow :
    ((blank 0x1000 7).write16 0x200 0x12345678).toOption.map (fun m => [0x200, 0x201, 0x202].map m.byte) =
      some [0x78#8, 0x56#8, 7#8] ∧
    ((blank 0x1000 7).write8 0x300 0x12345678).toOption.map (fun m => [0x300, 0x301].map m.byte) =
      some [0x78#8, 7#8] := by decide
/-- M7, M8a, M8b, M8c, M8d: the sign injection is one bit. -/
theorem test_signed :
    ([0x8000#32, 0x7FFF#32, 0xFFFF#32] : List Word).map (fun v =>
      ((blank 0x1000 7).write16 0x400 v).toOption.bind (fun m => (m.read16Signed 0x400).toOption)) =
      [some 0x18000, some 0x7FFF, some 0x1FFFF] ∧
    ([0x80#32, 0xFF#32, 0x7F#32] : List Word).map (fun v =>
      ((blank 0x1000 7).write8 0x500 v).toOption.bind (fun m => (m.read8Signed 0x500).toOption)) =
      [some 0x180, some 0x1FF, some 0x7F] := by decide
/-- M9, M10, M12, M13 with fill 0x11. -/
theorem test_bounds :
    ((blank 0x00FFFFFF 0x11).read32 0x00FFFFFB).toOption = some 0x11111111 ∧
    ((blank 0x00FFFFFF 0x11).read32 0x00FFFFFC).toOption = none ∧
    ((blank 0x00FFFFFF 0x11).read16 0x00FFFFFD).toOption = some 0x1111 ∧
    ((blank 0x00FFFFFF 0x11).read16 0x00FFFFFE).toOption = none ∧
    ((blank 0x00FFFFFF 0x11).read8 0x00FFFFFE).toOption = some 0x11 ∧
    ((blank 0x00FFFFFF 0x11).read8 0x00FFFFFF).toOption = none := by decide
/-- M15, M16, M17: small capacities. -/
theorem test_small_capacities :
    ((blank 16 0x11).read32 12).toOption.isSome = true ∧ ((blank 16 0x11).read32 13).toOption.isSome = false ∧
    ((blank 3 0x11).read32 0).toOption.isSome = false ∧ ((blank 3 0x11).read16 1).toOption = some 0x1111 ∧
    ((blank 0 0x11).read8 0).toOption.isSome = false := by decide
/-- Writing the fill unlists the byte, so that equal memories are equal data. -/
theorem test_canonical :
    (((blank 16 7).setByte 3 9).setByte 1 8).cells = [(1, 8#8), (3, 9#8)] ∧
    ((((blank 16 7).setByte 3 9).setByte 1 8).setByte 3 7).cells = [(1, 8#8)] := by decide

/-! ## Sequencer and host interface (section 2.12) -/

/-- Q1, JMP9: the fetch past the end. -/
theorem test_overrun : (after (preset []) []).status = .fault (.programCounterOverrun 0) 0 ∧
    (after ((preset []).setPc 2) [0x06400001#32, 8#32, 0x08000000#32]).status = .fault (.programCounterOverrun 2) 2 := by
  decide
/-- Q7, Q8: the limit is tested before the fetch. -/
theorem test_limit :
    (after { preset [] with stepLimit := some 0 } [0x08000000#32]).status = .stepLimitExceeded ∧
    (after { preset [] with stepLimit := some 0 } []).status = .stepLimitExceeded := by decide
/-- Q5's first step: pc and the count move on. -/
theorem test_first_step :
    (after { preset [] with stepLimit := some 2 } [0x01400010#32, 0x08000000#32]).steps = 1 ∧
    (after { preset [] with stepLimit := some 2 } [0x01400010#32, 0x08000000#32]).status = .running := by decide
/-- An Idle machine with no program stays as it is; a loaded and started one runs. -/
theorem test_reset_idle : step State.reset = .next State.reset := by rfl
/-- Q10: the rejected load keeps the program. -/
theorem test_load_rejected :
    (hostLoad opc [0#32] { State.reset with program := some [.hlt (.r 0 0 0)] }).toOption =
      some ⟨{ State.reset with program := some [.hlt (.r 0 0 0)] }, some ⟨.invalidOpcode 0, 0, 0⟩⟩ := by decide
/-- R71: the host cannot construct, load, run or dump a machine while its run goes on. -/
theorem test_no_move_while_running :
    (hostNew 16 7 none (running State.reset []), hostStart (running State.reset [])) =
      (.error .newWhileRunning, .error .runWhileRunning) ∧
    hostLoad opc [] (running State.reset []) = .error .loadWhileRunning ∧
    hostDump none (running State.reset []) = .error .dumpWhileRunning := ⟨rfl, rfl, rfl⟩
/-- The host's placed word is what the next step runs, from reset. -/
theorem test_fetch_word :
    step (State.reset.withFetchWord 32 0x01400050) =
      .next { (State.reset.withFetchWord 32 0x01400050).setReg 0 5 with pc := 1#32, steps := 1 } := by rfl
/-- The dump window: absent out of range, little-endian in it. -/
theorem test_dump :
    (hostDump Config.dumpAddr (poke State.reset 0x2000 [1, 2, 3, 4])).toOption.map (·.window) =
      some (some 0x04030201#32) ∧
    (hostDump (some 0x00FFFFFC) State.reset).toOption.map (·.window) = some none := by decide

/-! ## Witnesses: the hypotheses of the statements are met

Each theorem shows, for one statement, concrete values that meet all of its hypotheses together, clause by clause and at
the boundary values of each clause. -/

/-- DecodedOperandsFollowMode: one word in each of the five formats. -/
theorem wit_DecodedOperandsFollowMode :
    ∀ wi ∈ ([(0x02002010#32, .subR 2 0 1), (0x01400050#32, .setI 0 0 5), (0x01400001#32, .setX 0 0 9),
      (0x01803040#32, .setM 3 0 4), (0x04C55048#32, .sdB 5 0 4 8)] : List (Word × Instr)),
      (decodeOne opc wi.1 9).toOption = some wi.2 := by decide
/-- DecodeAdmitsExactlyTheTable: an admitted mode, one that is not, an unassigned byte. -/
theorem wit_DecodeAdmitsExactlyTheTable :
    (opc.byte .sd = (0x04C55048#32).extractLsb' 24 8 ∧
      Opcode.sd.admits (AddrMode.ofBits ((0x04C55048#32).extractLsb' 22 2)) = true) ∧
    (opc.byte .sd = (0x04000010#32).extractLsb' 24 8 ∧
      Opcode.sd.admits (AddrMode.ofBits ((0x04000010#32).extractLsb' 22 2)) = false) ∧
    ∀ op ∈ Opcode.all, opc.byte op ≠ (0x22000000#32).extractLsb' 24 8 := by decide
/-- IgnoredBitsDoNotMatter: the modes of its three conditional clauses. -/
theorem wit_IgnoredBitsDoNotMatter :
    (0x0233F21F#32).extractLsb' 22 2 = 0#2 ∧ (0x0180304F#32).extractLsb' 22 2 = 2#2 ∧
    (0x0140005E#32).extractLsb' 22 2 = 1#2 ∧ (0x014000F1#32).extractLsb' 22 2 = 1#2 ∧
    (0x014000F1#32).getLsbD 0 = true := by decide
/-- DecodeOfEncodedProgram: a program with an instruction of each format, the fields at their largest values. -/
theorem wit_DecodeOfEncodedProgram :
    ∀ i ∈ ([.subR 15 15 15, .setI 15 15 15, .setX 15 15 0xFFFFFFFF, .mulM 15 15 15, .sdB 15 15 15 15,
      .hlt (.x 0 0 0xFFFFFFFF), .call (.b 1 2 3 15)] : List Instr), i.wf = true := by decide
/-- DecodedProgramIndexing, DecodedProgramsAreWellFormed: a program that decodes, two of its instructions extended. -/
theorem wit_DecodedProgram :
    (decode opc [0x01400001#32, 0xFF#32, 0x01400050#32, 0x06400001#32, 8#32]).toOption =
      some [.setX 0 0 0xFF, .setI 0 0 5, .jmpX 0 0 8] := by decide
/-- DecodeErrorNamesFirstWord: a program rejected for each of the three kinds. -/
theorem wit_DecodeErrorNamesFirstWord :
    rejected [0x08000000#32, 0#32] = some ⟨.invalidOpcode 0, 1, 0⟩ ∧
    rejected [0x04000010#32] = some ⟨.invalidMode 0, 0, 0x04000010⟩ ∧
    rejected [0x08000000#32, 0x01400001#32] = some ⟨.truncatedExtension, 1, 0x01400001⟩ := by decide
/-- ReadIsLittleEndianSum, WriteChangesExactlyItsBytes, AccessorRoundTrips, NarrowReadsSeeLowBytesFirst,
SignedReadsInjectOneBit: the last address in bounds and the first out of bounds, of each width. -/
theorem wit_MemoryBounds :
    12 + 4 ≤ (blank 16 7).capacity ∧ (blank 16 7).capacity < 13 + 4 ∧ 14 + 2 ≤ (blank 16 7).capacity ∧
    (blank 16 7).capacity < 15 + 2 ∧ 15 + 1 ≤ (blank 16 7).capacity ∧ (blank 16 7).capacity < 16 + 1 := by decide
/-- CanonicalMemoriesWithEqualBytesAreEqual: one memory reached by two orders of writes. -/
theorem wit_CanonicalMemories :
    (((blank 16 7).setByte 3 9).setByte 1 8).wf ∧ (((blank 16 7).setByte 1 8).setByte 3 9).wf ∧
    ∀ a < 16, (((blank 16 7).setByte 3 9).setByte 1 8).byte a = (((blank 16 7).setByte 1 8).setByte 3 9).byte a := by
  decide
/-- RegisterFileReadsWhatWasWritten: the last index in range, the first out of it. -/
theorem wit_RegisterFile : (15 : Nat) < 16 ∧ 16 ≤ 16 := by decide
/-- ResetZeroesTheRegisterFile, ConstructionKeepsTheLoadedProgram: construction at the largest and at the smallest
capacity, on a machine that is not Running; the first capacity past the constraint; a Running machine. -/
theorem wit_hostNew :
    hostNew (2 ^ 32) 7 (some 3) State.reset = .ok (State.construct (2 ^ 32) 7 (some 3) none) ∧
    hostNew 0 0 none State.reset = .ok (State.construct 0 0 none none) ∧ State.reset.status ≠ .running ∧
    2 ^ 32 ≤ 2 ^ 32 ∧ 2 ^ 32 < 2 ^ 32 + 1 ∧ ({ State.reset with status := .running } : State).status = .running :=
  ⟨rfl, rfl, by decide, by decide, by decide, rfl⟩
/-- SetWritesItsSource, SubWritesTheWrappedDifference, MulWritesTheWrappedProduct: the memory clauses, at the last word
in bounds and the first out of bounds, by register and by base and offset. -/
theorem wit_LoadClauses :
    ((preset [(4, 0x00FFFFFB)]).reg 4).toNat + 4 ≤ (preset [(4, 0x00FFFFFB)]).mem.capacity ∧
    (preset [(4, 0x00FFFFFC)]).mem.capacity < ((preset [(4, 0x00FFFFFC)]).reg 4).toNat + 4 ∧
    ((preset [(4, 0x00FFFFF7)]).reg 4).toNat + (4#32).toNat + 4 ≤ (preset [(4, 0x00FFFFF7)]).mem.capacity ∧
    (preset [(4, 0x00FFFFF8)]).mem.capacity < ((preset [(4, 0x00FFFFF8)]).reg 4).toNat + (4#32).toNat + 4 := by decide
/-- SdStoresItsRegister: the last word in bounds, in each of the three address forms. -/
theorem wit_SdStoresItsRegister :
    eaImmediate 0x00FFFFFB#32 + 4 ≤ State.reset.mem.capacity ∧
    eaIndirect 1 (preset [(1, 0x00FFFFFB)]) + 4 ≤ (preset [(1, 0x00FFFFFB)]).mem.capacity ∧
    eaBaseOffset 1 15#32 (preset [(1, 0x00FFFFEC)]) + 4 ≤ (preset [(1, 0x00FFFFEC)]).mem.capacity := by decide
/-- EffectiveAddressesDoNotWrap: the sum reaches 2^32 exactly. -/
theorem wit_EffectiveAddresses :
    2 ^ 32 ≤ ((preset [(1, 0xFFFFFFFF)]).reg 1).toNat + (1#32).toNat ∧
    (preset [(1, 0xFFFFFFFF)]).mem.capacity ≤ 2 ^ 32 := by decide
/-- MemoryFormsRaiseOutOfBounds: each of the ten memory forms, one byte past the last word. -/
theorem wit_MemoryForms :
    (∀ i ∈ ([.setM 0 0 1, .subM 0 0 1, .mulM 0 0 1, .sdM 0 0 1, .setB 0 0 1 0, .subB 0 0 1 0, .mulB 0 0 1 0,
      .sdB 0 0 1 0, .sdI 0 0 0x00FFFFFC, .sdX 0 0 0x00FFFFFC] : List Instr),
      Instr.address i (preset [(1, 0x00FFFFFC)]) = some 0x00FFFFFC) ∧
    (preset [(1, 0x00FFFFFC)]).mem.capacity < 0x00FFFFFC + 4 := by decide
/-- IfnJumpsExactlyOnEq: the flag EQ, and the flag NE. -/
theorem wit_IfnJumps : State.reset.cmp = 0 ∧ (State.reset.setCmp 1).cmp ≠ 0 := by decide

/-- A running machine: a program that stores, jumps, compares, halts and meets a reserved opcode. -/
def sample : State :=
  { State.reset with
    program := some [.setI 0 0 5, .sdI 0 0 8, .cmpR 0 0 1, .jmpX 0 0 12, .hlt (.r 0 0 0), .add (.r 0 0 0)]
    status := .running }

theorem sample_inv : sample.Inv where
  memWf := by decide
  inert := by decide
  cmpCode := by decide
  progLength := by decide
  progWf := by decide
  idleFresh := by decide
  pcBound := by decide
  notPending := by decide
  withinLimit := by intro limit h; cases h

/-- StepRunsDecodedInstruction: an instruction after which the machine runs on, one that jumps, one that stops it; and
the program of a load. -/
theorem wit_StepRunsDecodedInstruction :
    (sample.status = .running ∧ sample.limitReached = false ∧ sample.dis[sample.pc.toNat]? = some (.setI 0 0 5) ∧
      ∃ t, exec (.setI 0 0 5) { sample with jumped := false } = .next t ∧ t.status = .running) ∧
    ((sample.setPc 3).dis[(sample.setPc 3).pc.toNat]? = some (.jmpX 0 0 12) ∧
      ∃ t, exec (.jmpX 0 0 12) { sample.setPc 3 with jumped := false } = .next t ∧ t.status = .running ∧
        t.jumped = true) ∧
    ((sample.setPc 4).dis[(sample.setPc 4).pc.toNat]? = some (.hlt (.r 0 0 0)) ∧
      ∃ t, exec (.hlt (.r 0 0 0)) { sample.setPc 4 with jumped := false } = .next t ∧ t.status ≠ .running) ∧
    ∃ prog, decode opc [0x08000000#32] = .ok prog ∧ prog[0]? = some (.hlt (.r 0 0 0)) :=
  ⟨⟨rfl, rfl, rfl, _, rfl, rfl⟩, ⟨rfl, _, rfl, rfl, rfl⟩, ⟨rfl, _, rfl, by decide⟩, _, rfl, rfl⟩
/-- StepStopsBeforeExecuting: the limit just reached; pc at the end of the program, with no limit. -/
theorem wit_StepStopsBeforeExecuting :
    (∀ limit, ({ sample with stepLimit := some 3, steps := 3 } : State).stepLimit = some limit → limit ≤ 3) ∧
    (sample.setPc 6).status = .running ∧ (sample.setPc 6).stepLimit = none ∧
    (sample.setPc 6).dis.length ≤ (sample.setPc 6).pc.toNat :=
  ⟨fun limit h => by cases h; decide, rfl, rfl, by decide⟩
/-- StoppedMachineStaysPut: the four statuses that are not Running. -/
theorem wit_StoppedMachineStaysPut :
    ∀ st ∈ ([.idle, .halted, .fault (.programCounterOverrun 0) 0, .stepLimitExceeded] : List RunStatus),
      ({ sample with status := st } : State).status ≠ .running := by decide
/-- FaultsKeepNoWrites: a step into each of the three errors an instruction or a fetch raises. -/
theorem wit_FaultsKeepNoWrites :
    sample.status = .running ∧
    (∃ t, step (sample.setPc 5) = .next t ∧ t.status = .fault (.unimplementedOpcode .add) 5) ∧
    (∃ t, step (sample.setPc 6) = .next t ∧ t.status = .fault (.programCounterOverrun 6) 6) ∧
    ∃ t, step { sample with mem := blank 11 7, pc := 1#32 } = .next t ∧
      t.status = .fault (.outOfBoundsMemoryAccess 8 4) 1 :=
  ⟨rfl, ⟨_, rfl, rfl⟩, ⟨_, rfl, rfl⟩, _, rfl, rfl⟩
/-- PcAfterStepByInstruction: a stop, a step to pc + 1, an IFN on NE, a JMP and an IFN on EQ. -/
theorem wit_PcAfterStep :
    (∃ t, step (sample.setPc 4) = .next t ∧ t.status ≠ .running) ∧
    (∃ t, step sample = .next t ∧ t.status = .running ∧ sample.fetch = some (.setI 0 0 5)) ∧
    (∃ t, step (State.placeInstr (sample.setCmp 1) (.ifnI 0 0 8)) = .next t ∧ (sample.setCmp 1).cmp ≠ 0) ∧
    (∃ t, step (sample.setPc 3) = .next t ∧ (sample.setPc 3).fetch = some (.jmpX 0 0 12)) ∧
    ∃ t, step (State.placeInstr sample (.ifnI 0 0 8)) = .next t ∧ sample.cmp = 0 :=
  ⟨⟨_, rfl, by decide⟩, ⟨_, rfl, rfl, rfl⟩, ⟨_, rfl, by decide⟩, ⟨_, rfl, rfl⟩, _, rfl, rfl⟩
/-- JumpToItselfStaysThere: the jump to 12 stands at index 3. -/
theorem wit_JumpToItself :
    (sample.setPc 3).status = .running ∧ (sample.setPc 3).limitReached = false ∧
    (sample.setPc 3).fetch = some (.jmpX 0 0 12) ∧ (12#32).toNat / 4 = (sample.setPc 3).pc.toNat :=
  ⟨rfl, rfl, rfl, rfl⟩
/-- StepKeepsProgramAndInertState, EachPieceOfStateHasItsWriters, InertStateIsNeverRead: steps that change a register, a
byte of memory, the compare flag and the jump mark. -/
theorem wit_Writers :
    (∃ t, step sample = .next t ∧ t.reg 0 ≠ sample.reg 0) ∧
    (∃ t, step (sample.setPc 1) = .next t ∧ t.mem.byte 8 ≠ sample.mem.byte 8) ∧
    (∃ t, step ((sample.setPc 2).setReg 1 1) = .next t ∧ t.cmp ≠ sample.cmp) ∧
    ∃ t, step (sample.setPc 3) = .next t ∧ sample.jumped = false ∧ t.jumped = true :=
  ⟨⟨_, rfl, by decide⟩, ⟨_, rfl, by decide⟩, ⟨_, rfl, by decide⟩, _, rfl, rfl, rfl⟩
/-- StepKeepsInvariant: a running machine with a program meets the invariant, and it steps. -/
theorem wit_StepKeepsInvariant : sample.Inv ∧ ∃ t, step sample = .next t ∧ t.pc = 1 := ⟨sample_inv, _, rfl, rfl⟩
/-- StepKeepsStopsExplained: a running machine that is about to halt, and one that has. -/
theorem wit_StepKeepsStopsExplained :
    (sample.setPc 4).StopExplained ∧ (∃ t, step (sample.setPc 4) = .next t ∧ t.status = .halted) ∧
    (State.halt (sample.setPc 4)).StopExplained :=
  ⟨trivial, ⟨_, rfl, rfl⟩, _, rfl⟩
/-- ResetMeetsBothInvariants, HostTransactionsKeepInvariant: construction, a load, a start and a run all answer from
states that meet the invariant. -/
theorem wit_HostTransactions :
    sample.Inv ∧ hostNew 16 7 none (State.halt sample) = .ok (State.construct 16 7 none sample.program) ∧
    (∃ t, hostStart (State.halt sample) = .ok t ∧ (State.halt sample).mem = sample.mem) ∧
    (∃ reply, hostLoad opc [0x08000000#32] State.reset = .ok reply ∧ reply.error = none) ∧
    ∃ t, hostRun 3 (State.halt sample) = .next t :=
  ⟨sample_inv, rfl, ⟨_, rfl, rfl⟩, ⟨_, rfl, rfl⟩, _, rfl⟩
/-- LoadStoresTheProgramOrNothing: an Idle machine, words that decode and words that do not. -/
theorem wit_LoadStores :
    State.reset.status ≠ .running ∧ State.reset.ext = none ∧
    decode opc [0x08000000#32] = .ok [.hlt (.r 0 0 0)] ∧ ([.hlt (.r 0 0 0)] : List Instr).length < 2 ^ 32 ∧
    decode opc [0#32] = .error ⟨.invalidOpcode 0, 0, 0⟩ :=
  ⟨by decide, rfl, rfl, by decide, rfl⟩
/-- StepLimitEndsEveryRun: a limit not reached yet, and one just reached. -/
theorem wit_StepLimitEnds :
    (∃ s : State, s.status = .running ∧ s.stepLimit = some 2 ∧ s.steps ≤ 2 ∧ s.steps = 0) ∧
    ∃ s : State, s.status = .running ∧ s.stepLimit = some 2 ∧ s.steps ≤ 2 ∧ s.steps = 2 :=
  ⟨⟨{ sample with stepLimit := some 2 }, by decide⟩, { sample with stepLimit := some 2, steps := 2 }, by decide⟩
/-- RunOfStoppedMachineTakesNoStep: a halted machine, an Idle one with a program, an Idle one without. -/
theorem wit_RunOfStopped :
    (∃ r, (State.halt sample).runResult = some r) ∧
    (({ sample with status := .idle } : State).status = .idle ∧
      ({ sample with status := .idle } : State).program.isSome = true) ∧
    State.reset.status = .idle ∧ State.reset.program = none := ⟨⟨_, rfl⟩, ⟨rfl, rfl⟩, rfl, rfl⟩
/-- DumpShowsTheState: a halted machine, the last address in range and the first out of range. -/
theorem wit_Dump :
    (State.halt sample).status ≠ .running ∧ 0x00FFFFFB + 4 ≤ (State.halt sample).mem.capacity ∧
    (State.halt sample).mem.capacity < 0x00FFFFFC + 4 := by decide
/-- PlacedWordRunsNext: a table word the decoder reads. -/
theorem wit_PlacedWord : decodeTableWord 32 0x04C55048 = some (.sdB 5 0 4 8) := by decide

end Sys2Proof.Tests
end

section
/-!
PROOFS. The register file and reset (spec/10_state.md). A register-file index either is the number of a register, where
the interface is the instructions' own access, or it fails; and construction, where it answers, is `State.construct`.
-/

namespace Sys2Proof.Machine

variable (s : State)

/-! ### The register-file interface -/

/-- An index in range is the number of a register (R23). -/
theorem RegIdx.exists_toNat_eq {idx : Nat} (h : idx < 16) : ∃ r : RegIdx, r.toNat = idx :=
  ⟨BitVec.ofNatLT idx h, BitVec.toNat_ofNatLT idx h⟩

/-- A read out of range fails (R23). -/
theorem State.getRegister_of_ge {idx : Nat} (h : 16 ≤ idx) :
    s.getRegister idx = .error (.invalidRegisterIndex idx) :=
  dif_neg (Nat.not_lt.mpr h)

/-- A write out of range fails (R23). -/
theorem State.setRegister_of_ge {idx : Nat} (h : 16 ≤ idx) (v : Word) :
    s.setRegister idx v = .error (.invalidRegisterIndex idx) :=
  dif_neg (Nat.not_lt.mpr h)

/-- A register write is not seen through the interface at any other index, in range or not (R21). -/
theorem State.getRegister_setReg_of_ne (r : RegIdx) (v : Word) {j : Nat} (h : j ≠ r.toNat) :
    (s.setReg r v).getRegister j = s.getRegister j := by
  rcases Nat.lt_or_ge j 16 with hj | hj
  · obtain ⟨q, rfl⟩ := RegIdx.exists_toNat_eq hj
    have hq : q ≠ r := fun e => h (congrArg BitVec.toNat e)
    rw [State.getRegister_toNat, State.getRegister_toNat, State.reg_setReg_of_ne s r q v hq]
  · rw [State.getRegister_of_ge _ hj, State.getRegister_of_ge _ hj]

/-- Reset registers read 0 (R41). -/
@[simp] theorem State.reset_reg (r : RegIdx) : State.reset.reg r = 0 := State.construct_reg _ _ _ _ r

/-! ### Construction -/

/-- When `new` answers, and with what (R223). -/
theorem hostNew_eq_ok_iff {capacity : Nat} {fill : Byte} {limit : Option Nat} {s t : State} :
    hostNew capacity fill limit s = .ok t ↔
      s.status ≠ .running ∧ capacity ≤ Config.maxCapacity ∧ State.construct capacity fill limit s.program = t := by
  unfold hostNew
  split
  case isTrue hrun => simp [hrun]
  case isFalse hrun =>
    split
    case isTrue hcap => simp [hrun, hcap]
    case isFalse hcap => simp [hcap]

end Sys2Proof.Machine

namespace Sys2Proof.Proofs

open Sys2Proof.Machine

/-- Settles O18: an index below 16 is some register's number, so the interface is `setReg` and `reg` there; from 16 on
both accessors fail. -/
theorem registerFileReadsWhatWasWritten : Obligations.RegisterFileReadsWhatWasWritten := by
  intro s idx v
  constructor
  · intro hlt
    obtain ⟨r, rfl⟩ := RegIdx.exists_toNat_eq hlt
    refine ⟨s.setReg r v, s.setRegister_toNat r v, ?_, fun j => s.getRegister_setReg_of_ne r v, rfl, ?_⟩
    · rw [State.getRegister_toNat, State.reg_setReg_self]
    · rw [State.getRegister_toNat, State.reset_reg]
  · intro hge
    exact ⟨s.setRegister_of_ge hge v, s.getRegister_of_ge hge⟩

/-- Settles O19: whatever `new` answers is `State.construct`, as is `State.reset`. -/
theorem resetZeroesTheRegisterFile : Obligations.ResetZeroesTheRegisterFile := by
  refine ⟨?_, State.reset_reg, rfl, rfl, rfl, rfl, rfl, rfl⟩
  intro capacity fill limit s t hnew
  obtain ⟨-, -, rfl⟩ := hostNew_eq_ok_iff.mp hnew
  exact ⟨State.construct_reg _ _ _ _, rfl, rfl, rfl, rfl, rfl, construct_mem_byte _ _ _ _, rfl, rfl⟩

end Sys2Proof.Proofs
end

section
/-!
PROOFS. Data memory (spec/20_memory.md). A read is the little-endian sum of its bytes, a write puts the base-256 digits
of its value into them, so a write read back at its own width is the value under the mask of that width; and the signed
reads copy the top bit of what was read one place up.
-/

namespace Sys2Proof.Machine

/-! ### Reads and writes -/

/-- The recursion over the bytes is the sum of R53. -/
theorem Memory.readLE_eq_sum (n : Nat) : ∀ (m : Memory) (a : Nat),
    m.readLE a n = ∑ k ∈ Finset.range n, (m.byte (a + k)).toNat * 2 ^ (8 * k) := by
  induction n with
  | zero => intros; rfl
  | succ n ih =>
    intro m a
    have hterm (k : Nat) : (m.byte (a + (k + 1))).toNat * 2 ^ (8 * (k + 1)) =
        256 * ((m.byte (a + 1 + k)).toNat * 2 ^ (8 * k)) := by
      rw [show a + (k + 1) = a + 1 + k by omega]
      ring
    rw [Memory.readLE, ih, Finset.sum_range_succ', Finset.sum_congr rfl fun k _ => hterm k, ← Finset.mul_sum]
    simp [Nat.add_comm]

/-- A number of at most four bytes fits a word, so a read loses none of it (R53). -/
theorem Memory.toNat_ofNat_readLE (m : Memory) (a : Nat) {n : Nat} (hn : n ≤ 4) :
    (BitVec.ofNat 32 (m.readLE a n)).toNat = m.readLE a n := by
  have hlt : m.readLE a n < 256 ^ n := m.readLE_lt n a
  have hle : 256 ^ n ≤ 256 ^ 4 := Nat.pow_le_pow_right (by decide) hn
  exact BitVec.toNat_ofNat _ _ ▸ Nat.mod_eq_of_lt (by omega)

/-- A value read with width `n` is below 2^(8n) (R55). -/
theorem Memory.toNat_read_lt {m : Memory} {a n : Nat} {v : Word} (h : m.read a n = .ok v) : v.toNat < 256 ^ n := by
  by_cases hb : a + n ≤ m.capacity
  · rw [Memory.read_of_le hb] at h
    cases h
    exact (BitVec.toNat_ofNat _ _ ▸ Nat.mod_le _ _).trans_lt (m.readLE_lt n a)
  · rw [Memory.read_of_lt (by omega)] at h
    cases h

/-- Digit `k` of a word in base 256 is its bits 8k+7..8k (R54). -/
theorem ofNat_div_pow_eq_extractLsb' (v : Word) (k : Nat) :
    BitVec.ofNat 8 (v.toNat / 256 ^ k) = v.extractLsb' (8 * k) 8 := by
  rw [BitVec.extractLsb', Nat.shiftRight_eq_div_pow, Nat.pow_mul]

/-- The low `n` bytes of a word are the word under the mask of `n` bytes (R56). -/
theorem ofNat_mod_pow_eq_and (v : Word) (n : Nat) :
    BitVec.ofNat 32 (v.toNat % 256 ^ n) = v &&& BitVec.ofNat 32 (256 ^ n - 1) := by
  have hmask : v.toNat % 256 ^ n = v.toNat &&& (256 ^ n - 1) := by
    rw [show 256 ^ n = 2 ^ (8 * n) from (Nat.pow_mul 2 8 n).symm, Nat.and_two_pow_sub_one_eq_mod]
  rw [hmask, BitVec.ofNat_and, BitVec.ofNat_toNat, BitVec.setWidth_eq]

/-- A write in bounds answers, and a read of the same width at the same address then gives the value under the mask of
that width (R58). -/
theorem Memory.write_then_read {m : Memory} {a n : Nat} (h : a + n ≤ m.capacity) (v : Word) :
    ∃ m', m.write a n v = .ok m' ∧ m'.read a n = .ok (v &&& BitVec.ofNat 32 (256 ^ n - 1)) := by
  refine ⟨_, Memory.write_of_le h v, ?_⟩
  rw [Memory.read_of_le (by simpa using h), Memory.readLE_writeLE, ofNat_mod_pow_eq_and]

/-! ### The one-bit sign injection -/

/-- Bit `i` alone, one place up, is a word whose only bit can be bit `i + 1`. -/
theorem getLsbD_and_twoPow_shiftLeft_one (v : Word) (i : Nat) {j : Nat} (hj : j < 32) :
    ((v &&& BitVec.twoPow 32 i) <<< 1).getLsbD j = (decide (j = i + 1) && v.getLsbD i) := by
  rw [BitVec.getLsbD_shiftLeft, BitVec.getLsbD_and, BitVec.getLsbD_twoPow]
  cases j with
  | zero => simp
  | succ j =>
    by_cases h : j = i
    · subst h
      simp [hj, Nat.lt_of_succ_lt hj]
    · simp [h, Ne.symm h]

/-- Copying the top bit of a value below 2^(i+1) one place up keeps the bits it has and leaves those above the copy 0
(R57). -/
theorem getLsbD_or_topBit_shiftLeft_one {v : Word} {i j : Nat} (hv : v.toNat < 2 ^ (i + 1)) (hj : j < 32) :
    (v ||| ((v &&& BitVec.twoPow 32 i) <<< 1)).getLsbD j =
      if j < i + 1 then v.getLsbD j else if j = i + 1 then v.getLsbD i else false := by
  have hhigh (h : i + 1 ≤ j) : v.getLsbD j = false :=
    Nat.testBit_lt_two_pow (hv.trans_le (Nat.pow_le_pow_right (by decide) h))
  rw [BitVec.getLsbD_or, getLsbD_and_twoPow_shiftLeft_one v i hj]
  rcases Nat.lt_trichotomy j (i + 1) with hlt | heq | hgt
  · simp [hlt, hlt.ne]
  · rw [hhigh heq.ge]
    simp [heq]
  · simp [hhigh hgt.le, hgt.ne', hgt.not_gt]

/-- Bit by bit, what the 16-bit injection makes of a 16-bit value (R57). -/
theorem getLsbD_sinj16 {v : Word} (hv : v.toNat < 256 ^ 2) {j : Nat} (hj : j < 32) :
    (sinj16 v).getLsbD j = if j < 16 then v.getLsbD j else if j = 16 then v.getLsbD 15 else false :=
  getLsbD_or_topBit_shiftLeft_one (i := 15) hv hj

/-- Bit by bit, what the 8-bit injection makes of an 8-bit value (R57). -/
theorem getLsbD_sinj8 {v : Word} (hv : v.toNat < 256 ^ 1) {j : Nat} (hj : j < 32) :
    (sinj8 v).getLsbD j = if j < 8 then v.getLsbD j else if j = 8 then v.getLsbD 7 else false :=
  getLsbD_or_topBit_shiftLeft_one (i := 7) hv hj

/-- A signed 16-bit read is the injection of what the unsigned one answers (R57). -/
theorem Memory.read16Signed_of_read16 {m : Memory} {a : Nat} {v : Word} (h : m.read16 a = .ok v) :
    m.read16Signed a = .ok (sinj16 v) :=
  congrArg (Except.map sinj16) h

/-- A signed 8-bit read is the injection of what the unsigned one answers (R57). -/
theorem Memory.read8Signed_of_read8 {m : Memory} {a : Nat} {v : Word} (h : m.read8 a = .ok v) :
    m.read8Signed a = .ok (sinj8 v) :=
  congrArg (Except.map sinj8) h

end Sys2Proof.Machine

namespace Sys2Proof.Proofs

open Sys2Proof.Machine

/-- Settles O12: the recursive little-endian number is the sum, and at these widths it fits the word. -/
theorem readIsLittleEndianSum : Obligations.ReadIsLittleEndianSum := by
  intro m a n hn
  refine ⟨fun hle => ⟨_, Memory.read_of_le hle, ?_⟩, Memory.read_of_lt⟩
  rw [Memory.toNat_ofNat_readLE m a (by omega), Memory.readLE_eq_sum]

/-- Settles O13: the bytes inside hold the value's base-256 digits, which are its bytes; those outside are kept. -/
theorem writeChangesExactlyItsBytes : Obligations.WriteChangesExactlyItsBytes := by
  intro m a n v _
  refine ⟨fun hle => ⟨_, Memory.write_of_le hle v, ?_, Memory.byte_writeLE_outside n m a v.toNat, ?_, ?_⟩,
    fun hlt => Memory.write_of_lt hlt v⟩
  · intro k hk
    rw [Memory.byte_writeLE_inside n m a v.toNat k hk, ofNat_div_pow_eq_extractLsb']
  · exact Memory.writeLE_capacity n m a v.toNat
  · exact Memory.writeLE_fill n m a v.toNat

/-- Settles O14: each is `Memory.write_then_read` at its width, where the four-byte mask keeps the whole word. -/
theorem accessorRoundTrips : Obligations.AccessorRoundTrips := by
  intro m a v
  refine ⟨fun h => ?_, fun h => Memory.write_then_read h v, fun h => Memory.write_then_read h v, fun h => ?_⟩
  · obtain ⟨m', hw, hr⟩ := Memory.write_then_read h v
    exact ⟨m', hw, hr.trans (congrArg Except.ok BitVec.and_allOnes)⟩
  · obtain ⟨m', hw, hr⟩ := Memory.write_then_read h 0x8000#32
    exact ⟨m', hw, Memory.read16Signed_of_read16 hr⟩

/-- Settles O16: in bounds a signed read injects one bit into the unsigned value, which is below 2^16 or 2^8. -/
theorem signedReadsInjectOneBit : Obligations.SignedReadsInjectOneBit := by
  intro m a
  refine ⟨fun h => ?_, fun h => ?_, fun h => ?_, fun h => ?_⟩
  · have hr : m.read16 a = .ok _ := Memory.read_of_le h
    exact ⟨_, _, hr, Memory.read16Signed_of_read16 hr, fun _ => getLsbD_sinj16 (Memory.toNat_read_lt hr)⟩
  · have hr : m.read8 a = .ok _ := Memory.read_of_le h
    exact ⟨_, _, hr, Memory.read8Signed_of_read8 hr, fun _ => getLsbD_sinj8 (Memory.toNat_read_lt hr)⟩
  · rw [Memory.read16Signed, Memory.read_of_lt h]
    rfl
  · rw [Memory.read8Signed, Memory.read_of_lt h]
    rfl

end Sys2Proof.Proofs
end

section
/-!
PROOFS. Field extraction (spec/30_encoding.md). A mask that, shifted down, is `n` ones cuts the `n` bits above the shift
out of the word; the bits of the mask that the shift discards do not count.
-/

namespace Sys2Proof

/-! ### A mask and a shift cut a slice -/

/-- The mask may have further ones below bit `k`, as the four-bit mode mask does (R83). -/
theorem and_ushiftRight_eq_extractLsb' {mask : Word} {k n : Nat} (w : Word)
    (hmask : mask >>> k = (BitVec.allOnes n).setWidth 32) :
    (w &&& mask) >>> k = (w.extractLsb' k n).setWidth 32 := by
  rw [BitVec.ushiftRight_and_distrib, hmask]
  ext i
  simp [Bool.and_comm]

theorem opcode_mask_shift (w : Word) :
    (w &&& 0xFF000000#32) >>> 24 = (w.extractLsb' 24 8).setWidth 32 :=
  and_ushiftRight_eq_extractLsb' w (by decide)

theorem mode_mask_shift (w : Word) :
    (w &&& 0x00F00000#32) >>> 22 = (w.extractLsb' 22 2).setWidth 32 :=
  and_ushiftRight_eq_extractLsb' w (by decide)

/-! ### The three fields -/

theorem opcodeField_eq_extractLsb' (w : Word) : opcodeField w = w.extractLsb' 24 8 := by
  rw [opcodeField, opcode_mask_shift, BitVec.setWidth_setWidth_of_le _ (by decide), BitVec.setWidth_eq]

theorem modeField_eq_extractLsb' (w : Word) : modeField w = w.extractLsb' 22 2 := by
  rw [modeField, mode_mask_shift, BitVec.setWidth_setWidth_of_le _ (by decide), BitVec.setWidth_eq]

theorem arguments_eq_extractLsb' (w : Word) : arguments w = (w.extractLsb' 0 20).setWidth 32 :=
  (BitVec.ushiftRight_zero _).symm.trans (and_ushiftRight_eq_extractLsb' w (by decide))

end Sys2Proof

namespace Sys2Proof.Proofs

/-- Settles O1: each mask, shifted, is ones of the field's width, so the masked and shifted word is the slice, and
cutting it to the field's width loses nothing. -/
theorem maskedFieldsAreBitSlices : Obligations.MaskedFieldsAreBitSlices := by
  intro w
  refine ⟨opcodeField_eq_extractLsb' w, ?_, modeField_eq_extractLsb' w, ?_, arguments_eq_extractLsb' w⟩
  · rw [opcodeField_eq_extractLsb', opcode_mask_shift]
  · rw [modeField_eq_extractLsb', mode_mask_shift]

end Sys2Proof.Proofs
end

section
/-!
PROOFS. The Decoder (spec/40_decoder.md). Every field is a slice of its word; the slices, with the word after it, make
one operand list (`wordForm`), and decoding one instruction is building it from its opcode and that list. Decoding a
program is reading it instruction by instruction (`Decodes`), or stopping at the first word that makes none.
-/

namespace Sys2Proof

/-! ### Fields as slices -/

/-- The argument mask loses no slice of the low 20 bits (R83). -/
theorem extractLsb'_arguments (w : Word) {k n : Nat} (h : k + n ≤ 20) :
    (arguments w).extractLsb' k n = w.extractLsb' k n := by
  rw [arguments_eq_extractLsb', BitVec.extractLsb'_setWidth_of_le (by omega), BitVec.extractLsb'_extractLsb'_of_le h]

theorem destField_eq_extractLsb' (w : Word) : destField w = w.extractLsb' 12 4 := extractLsb'_arguments w (by decide)

theorem src1Field_eq_extractLsb' (w : Word) : src1Field w = w.extractLsb' 8 4 := extractLsb'_arguments w (by decide)

theorem field74_eq_extractLsb' (w : Word) : field74 w = w.extractLsb' 4 4 := extractLsb'_arguments w (by decide)

theorem field30_eq_extractLsb' (w : Word) : field30 w = w.extractLsb' 0 4 := extractLsb'_arguments w (by decide)

theorem extFlag_eq_getLsbD (w : Word) : extFlag w = w.getLsbD 0 := by
  simp [extFlag, arguments]

/-- A mask with ones over a slice keeps the slice. -/
theorem extractLsb'_and_of_allOnes (mask w : Word) {k n : Nat}
    (h : mask.extractLsb' k n = BitVec.allOnes n) : (w &&& mask).extractLsb' k n = w.extractLsb' k n := by
  rw [BitVec.extractLsb'_and, h, BitVec.and_allOnes]

section Masks

variable (mask w : Word)

theorem opcodeField_and (h : mask.extractLsb' 24 8 = BitVec.allOnes 8) : opcodeField (w &&& mask) = opcodeField w := by
  rw [opcodeField_eq_extractLsb', opcodeField_eq_extractLsb', extractLsb'_and_of_allOnes mask w h]

theorem modeField_and (h : mask.extractLsb' 22 2 = BitVec.allOnes 2) : modeField (w &&& mask) = modeField w := by
  rw [modeField_eq_extractLsb', modeField_eq_extractLsb', extractLsb'_and_of_allOnes mask w h]

theorem destField_and (h : mask.extractLsb' 12 4 = BitVec.allOnes 4) : destField (w &&& mask) = destField w := by
  rw [destField_eq_extractLsb', destField_eq_extractLsb', extractLsb'_and_of_allOnes mask w h]

theorem src1Field_and (h : mask.extractLsb' 8 4 = BitVec.allOnes 4) : src1Field (w &&& mask) = src1Field w := by
  rw [src1Field_eq_extractLsb', src1Field_eq_extractLsb', extractLsb'_and_of_allOnes mask w h]

theorem field74_and (h : mask.extractLsb' 4 4 = BitVec.allOnes 4) : field74 (w &&& mask) = field74 w := by
  rw [field74_eq_extractLsb', field74_eq_extractLsb', extractLsb'_and_of_allOnes mask w h]

theorem field30_and (h : mask.extractLsb' 0 4 = BitVec.allOnes 4) : field30 (w &&& mask) = field30 w := by
  rw [field30_eq_extractLsb', field30_eq_extractLsb', extractLsb'_and_of_allOnes mask w h]

theorem extFlag_and (h : mask.getLsbD 0 = true) : extFlag (w &&& mask) = extFlag w := by
  rw [extFlag_eq_getLsbD, extFlag_eq_getLsbD, BitVec.getLsbD_and, h, Bool.and_true]

end Masks

/-! ### The operand list of a word -/

/-- The operand list a word shows, the word after it being `next` (R113, R114, R115). -/
def wordForm (w next : Word) : Form :=
  if takesExtension w then .x (destField w) (src1Field w) next else inlineForm w

/-- The mode field has four values (R85). -/
theorem modeField_cases (w : Word) : modeField w = 0#2 ∨ modeField w = 1#2 ∨ modeField w = 2#2 ∨ modeField w = 3#2 := by
  generalize modeField w = b
  revert b
  decide

section OneWord

variable {m : OpcodeMap} {w next : Word} {i : Instr} {op : Opcode}

theorem takesExtension_iff : takesExtension w = true ↔ modeField w = 1#2 ∧ extFlag w = true := by
  simp [takesExtension]

theorem wordForm_register (h : modeField w = 0#2) :
    wordForm w next = .r (destField w) (src1Field w) (field74 w) := by
  simp [wordForm, takesExtension, inlineForm, AddrMode.ofBits, h]

theorem wordForm_extended (h : modeField w = 1#2) (hx : extFlag w = true) :
    wordForm w next = .x (destField w) (src1Field w) next := by
  simp [wordForm, takesExtension, h, hx]

theorem wordForm_literal (h : modeField w = 1#2) (hx : extFlag w = false) :
    wordForm w next = .i (destField w) (src1Field w) ((field74 w).setWidth 32) := by
  simp [wordForm, takesExtension, inlineForm, AddrMode.ofBits, h, hx]

theorem wordForm_indirect (h : modeField w = 2#2) :
    wordForm w next = .m (destField w) (src1Field w) (field74 w) := by
  simp [wordForm, takesExtension, inlineForm, AddrMode.ofBits, h]

theorem wordForm_baseOffset (h : modeField w = 3#2) :
    wordForm w next = .b (destField w) (src1Field w) (field74 w) ((field30 w).setWidth 32) := by
  simp [wordForm, takesExtension, inlineForm, AddrMode.ofBits, h]

/-- A four-bit field, held as a 32-bit value, fits four bits (R87). -/
theorem fits4_setWidth (b : BitVec 4) : fits4 (b.setWidth 32) = true := by
  have hb := b.isLt
  simp only [fits4, BitVec.toNat_setWidth, decide_eq_true_eq]
  omega

/-- The mode of the operand list is the one the mode field selects, and its inline values fit their fields. -/
theorem wordForm_mode_wf (w next : Word) :
    (wordForm w next).mode = AddrMode.ofBits (modeField w) ∧ (wordForm w next).wf = true := by
  rcases modeField_cases w with h | h | h | h
  · rw [wordForm_register h, h]
    exact ⟨rfl, rfl⟩
  · cases hx : extFlag w
    · rw [wordForm_literal h hx, h]
      exact ⟨rfl, fits4_setWidth _⟩
    · rw [wordForm_extended h hx, h]
      exact ⟨rfl, rfl⟩
  · rw [wordForm_indirect h, h]
    exact ⟨rfl, rfl⟩
  · rw [wordForm_baseOffset h, h]
    exact ⟨rfl, fits4_setWidth _⟩

/-- An instruction can be built from the word's operand list exactly where the opcode admits the mode (R91). -/
theorem ofForm_wordForm_isSome (op : Opcode) (w next : Word) :
    (Instr.ofForm op (wordForm w next)).isSome = op.admits (AddrMode.ofBits (modeField w)) := by
  rw [Instr.ofForm_isSome, (wordForm_mode_wf w next).1]

/-! ### Decoding one instruction -/

theorem decodeOne_of_error {e : DecodeErrorKind} (h : decodeFirst m w = .error e) : decodeOne m w next = .error e := by
  simp only [decodeOne, h]

theorem decodeOne_of_whole (h : decodeFirst m w = .ok (.whole i)) : decodeOne m w next = .ok i := by
  simp only [decodeOne, h]

theorem decodeOne_of_extended {d a : RegIdx} (h : decodeFirst m w = .ok (.extended op d a)) :
    decodeOne m w next = withExtension op d a next := by
  simp only [decodeOne, h]

theorem decodeOne_of_inv_none (h : m.inv (opcodeField w) = none) :
    decodeOne m w next = .error (.invalidOpcode (opcodeField w)) :=
  decodeOne_of_error (by simp only [decodeFirst, h])

/-- With a recognized opcode the word decodes to the instruction of that opcode and the word's operand list, or is
InvalidMode where there is none (R111). -/
theorem decodeOne_of_inv_some (h : m.inv (opcodeField w) = some op) :
    decodeOne m w next = (Instr.ofForm op (wordForm w next)).elim (.error (.invalidMode (modeField w))) .ok := by
  cases hx : takesExtension w
  case false =>
    have hform : wordForm w next = inlineForm w := by simp [wordForm, hx]
    cases hi : Instr.ofForm op (inlineForm w) <;> simp [decodeOne, decodeFirst, h, hx, hform, hi]
  case true =>
    have hform : wordForm w next = .x (destField w) (src1Field w) next := by simp [wordForm, hx]
    have hsome := Instr.ofForm_isSome op (.x (destField w) (src1Field w) next)
    cases hi : Instr.ofForm op (.x (destField w) (src1Field w) next) <;> rw [hi] at hsome
    case none =>
      have hadm : op.admits .immediate = false := hsome.symm
      simp [decodeOne, decodeFirst, h, hx, hform, hadm, hi]
    case some i =>
      have hadm : op.admits .immediate = true := hsome.symm
      simp [decodeOne, decodeFirst, h, hx, hform, hadm, withExtension, hi]

/-- What a word decodes to: the instruction whose opcode has the word's opcode byte and whose operand list is the
word's. -/
theorem decodeOne_eq_ok_iff :
    decodeOne m w next = .ok i ↔ m.byte i.opcode = opcodeField w ∧ i.form = wordForm w next := by
  constructor
  · intro h
    cases hop : m.inv (opcodeField w) with
    | none => rw [decodeOne_of_inv_none hop] at h; cases h
    | some op =>
      rw [decodeOne_of_inv_some hop] at h
      cases hi : Instr.ofForm op (wordForm w next) with
      | none => rw [hi] at h; cases h
      | some j =>
        rw [hi] at h
        cases h
        obtain ⟨rfl, hform⟩ := Instr.of_ofForm hi
        exact ⟨OpcodeMap.byte_of_inv hop, hform⟩
  · rintro ⟨hbyte, hform⟩
    rw [decodeOne_of_inv_some (hbyte ▸ m.inv_byte i.opcode), ← hform, Instr.ofForm_self]
    rfl

/-- In a mode its recognized opcode has no instruction for, a word is InvalidMode (R92). -/
theorem decodeOne_of_not_admits (hbyte : m.byte op = opcodeField w)
    (h : op.admits (AddrMode.ofBits (modeField w)) = false) :
    decodeOne m w next = .error (.invalidMode (modeField w)) := by
  rw [← ofForm_wordForm_isSome op w next, Option.isSome_eq_false_iff, Option.isNone_iff_eq_none] at h
  rw [decodeOne_of_inv_some (hbyte ▸ m.inv_byte op), h]
  rfl

/-- Where a recognized opcode admits the word's mode the word decodes to an instruction of that opcode (R91). -/
theorem decodeOne_of_admits (hbyte : m.byte op = opcodeField w)
    (h : op.admits (AddrMode.ofBits (modeField w)) = true) : ∃ i, decodeOne m w next = .ok i ∧ i.opcode = op := by
  rw [← ofForm_wordForm_isSome op w next, Option.isSome_iff_exists] at h
  obtain ⟨i, hi⟩ := h
  obtain ⟨rfl, hform⟩ := Instr.of_ofForm hi
  exact ⟨i, decodeOne_eq_ok_iff.2 ⟨hbyte, hform⟩, rfl⟩

/-- An unassigned byte has no inverse, and the other way round (R89). -/
theorem OpcodeMap.inv_eq_none_iff {b : Byte} : m.inv b = none ↔ ∀ op, m.byte op ≠ b := by
  constructor
  · rintro h op rfl
    rw [m.inv_byte] at h
    cases h
  · intro h
    exact Option.eq_none_iff_forall_ne_some.2 fun op hop => h op (OpcodeMap.byte_of_inv hop)

/-- The two ways a word decodes to nothing (R92). -/
theorem decodeOne_eq_error {e : DecodeErrorKind} (h : decodeOne m w next = .error e) :
    (e = .invalidOpcode (opcodeField w) ∧ ∀ op, m.byte op ≠ opcodeField w) ∨
    (e = .invalidMode (modeField w) ∧
      ∃ op, m.byte op = opcodeField w ∧ op.admits (AddrMode.ofBits (modeField w)) = false) := by
  cases hop : m.inv (opcodeField w) with
  | none =>
    rw [decodeOne_of_inv_none hop] at h
    cases h
    exact .inl ⟨rfl, OpcodeMap.inv_eq_none_iff.1 hop⟩
  | some op =>
    have hbyte := OpcodeMap.byte_of_inv hop
    cases hadm : op.admits (AddrMode.ofBits (modeField w)) with
    | true =>
      obtain ⟨i, hi, _⟩ := decodeOne_of_admits (next := next) hbyte hadm
      rw [hi] at h
      cases h
    | false =>
      rw [decodeOne_of_not_admits hbyte hadm] at h
      cases h
      exact .inr ⟨rfl, op, hbyte, hadm⟩

/-- Decoding reads a word through its opcode byte, its mode field and its operand list alone. -/
theorem decodeOne_congr {w' : Word} (hop : opcodeField w' = opcodeField w) (hmode : modeField w' = modeField w)
    (hform : wordForm w' next = wordForm w next) : decodeOne m w next = decodeOne m w' next := by
  cases h : m.inv (opcodeField w) with
  | none => rw [decodeOne_of_inv_none h, decodeOne_of_inv_none (hop ▸ h), hop]
  | some op => rw [decodeOne_of_inv_some h, decodeOne_of_inv_some (hop ▸ h), hmode, hform]

/-- A mask does not change what a word decodes to when it keeps those three. -/
theorem decodeOne_and (mask w : Word) (hop : mask.extractLsb' 24 8 = BitVec.allOnes 8)
    (hmode : mask.extractLsb' 22 2 = BitVec.allOnes 2) (hform : wordForm (w &&& mask) next = wordForm w next) :
    decodeOne m w next = decodeOne m (w &&& mask) next :=
  decodeOne_congr (opcodeField_and mask w hop) (modeField_and mask w hmode) hform

end OneWord

/-! ### Decoding a program -/

/-- The words of a program read instruction by instruction (R111): `Decodes m ws prog` says that they make `prog`. -/
inductive Decodes (m : OpcodeMap) : List Word → List Instr → Prop where
  | nil : Decodes m [] []
  | whole {w : Word} {rest : List Word} {i : Instr} {prog : List Instr}
      (first : decodeFirst m w = .ok (.whole i)) (tail : Decodes m rest prog) : Decodes m (w :: rest) (i :: prog)
  | extended {w v : Word} {rest : List Word} {op : Opcode} {d a : RegIdx} {i : Instr} {prog : List Instr}
      (first : decodeFirst m w = .ok (.extended op d a)) (ext : withExtension op d a v = .ok i)
      (tail : Decodes m rest prog) : Decodes m (w :: v :: rest) (i :: prog)

section Program

variable {m : OpcodeMap} {ws : List Word} {prog : List Instr}

theorem Except.map_eq_ok {ε α β : Type} {f : α → β} {x : Except ε α} {b : β} (h : x.map f = .ok b) :
    ∃ a, x = .ok a ∧ f a = b := by
  cases x with
  | error e => cases h
  | ok a => exact ⟨a, rfl, Except.ok.inj h⟩

theorem Except.map_eq_error {ε α β : Type} {f : α → β} {x : Except ε α} {e : ε} (h : x.map f = .error e) :
    x = .error e := by
  cases x with
  | error e' => exact congrArg _ (Except.error.inj h)
  | ok a => cases h

theorem Decodes.decodeFrom_eq_ok (h : Decodes m ws prog) (k : Nat) : decodeFrom m k ws = .ok prog := by
  induction h generalizing k with
  | nil => rfl
  | whole first _ ih => rw [decodeFrom_whole first, ih]; rfl
  | extended first ext _ ih => rw [decodeFrom_extended first ext, ih]; rfl

theorem Decodes.of_decodeFrom {k : Nat} (h : decodeFrom m k ws = .ok prog) : Decodes m ws prog := by
  induction k, ws using decodeFrom.induct (m := m) generalizing prog with
  | case1 k => cases h; exact .nil
  | case2 k w rest e first => rw [decodeFrom_error first] at h; cases h
  | case3 k w rest i first ih =>
    rw [decodeFrom_whole first] at h
    obtain ⟨tail, htail, rfl⟩ := Except.map_eq_ok h
    exact .whole first (ih htail)
  | case4 k w op d a first => rw [decodeFrom_truncated first] at h; cases h
  | case5 k w op d a first v rest e hext =>
    obtain ⟨-, -, -, -, hadm⟩ := decodeFirst_extended first
    obtain ⟨i, hi, -⟩ := withExtension_of_admits hadm d a v
    rw [hi] at hext
    cases hext
  | case6 k w op d a first v rest i hext ih =>
    rw [decodeFrom_extended first hext] at h
    obtain ⟨tail, htail, rfl⟩ := Except.map_eq_ok h
    exact .extended first hext (ih htail)

theorem decode_eq_ok_iff : decode m ws = .ok prog ↔ Decodes m ws prog :=
  ⟨Decodes.of_decodeFrom, fun h => h.decodeFrom_eq_ok 0⟩

/-! ### Encoded programs decode -/

theorem encode_of_not_extended {i : Instr} (h : i.extended = false) : encode m i = [headWord m i] := by
  rw [Instr.extended] at h
  rw [encode, headWord]
  cases hform : i.form with
  | r | i | m | b => rfl
  | x d a v =>
    rw [hform] at h
    cases h

theorem encode_of_form_x {i : Instr} {d a : RegIdx} {v : Word} (h : i.form = .x d a v) :
    encode m i = [headWord m i, v] := by
  rw [encode, headWord, h]

/-- An extended instruction is one in format X (R88). -/
theorem Instr.extended_iff {i : Instr} : i.extended = true ↔ ∃ d a v, i.form = .x d a v := by
  unfold Instr.extended
  cases i.form <;> simp [Form.extended]

/-- The words of a well-formed instruction, put before words that decode, decode to it and what those decode to. -/
theorem Decodes.encode_append {i : Instr} (hw : i.wf = true) (h : Decodes m ws prog) :
    Decodes m (encode m i ++ ws) (i :: prog) := by
  cases hx : i.extended with
  | false =>
    rw [encode_of_not_extended hx]
    exact .whole (decodeFirst_headWord m hw hx) h
  | true =>
    obtain ⟨d, a, v, hform⟩ := Instr.extended_iff.1 hx
    rw [encode_of_form_x hform]
    exact .extended (decodeFirst_headWord_extended m hform) (withExtension_self hform) h

theorem Decodes.encodeProgram {prog : List Instr} (h : ∀ i ∈ prog, i.wf = true) :
    Decodes m (encodeProgram m prog) prog := by
  induction prog with
  | nil => exact .nil
  | cons i prog ih =>
    obtain ⟨hi, hprog⟩ := List.forall_mem_cons.1 h
    exact (ih hprog).encode_append hi

end Program

end Sys2Proof

namespace Sys2Proof.Proofs

/-- Settles O5, by induction on the program: the words of its first instruction are read back, then the rest. -/
theorem decodeOfEncodedProgram : Obligations.DecodeOfEncodedProgram :=
  fun _ _ hwf => decode_eq_ok_iff.2 (Decodes.encodeProgram hwf)

end Sys2Proof.Proofs
end

section
/-!
PROOFS. What the Decoder makes of words and of files (spec/40_decoder.md, spec/30_encoding.md): the statements about one
word, about the program words decode to, and about the word that makes them decode to none.
-/

namespace Sys2Proof

section Words

variable {m : OpcodeMap} {w : Word} {ws : List Word} {i : Instr} {prog : List Instr}

/-! ### The instructions of a program -/

theorem wf_of_decodeOne {next : Word} (h : decodeOne m w next = .ok i) : i.wf = true := by
  rw [Instr.wf, (decodeOne_eq_ok_iff.1 h).2]
  exact (wordForm_mode_wf w next).2

/-- An instruction is extended exactly when its first word takes an extension word (R88, R119). -/
theorem extended_of_decodeOne {next : Word} (h : decodeOne m w next = .ok i) : i.extended = takesExtension w := by
  rw [Instr.extended, (decodeOne_eq_ok_iff.1 h).2, wordForm]
  cases hx : takesExtension w
  · rw [if_neg Bool.false_ne_true, inlineForm]
    cases AddrMode.ofBits (modeField w) <;> rfl
  · rfl

/-- The words of a program, instruction by instruction, each with its length and what it decodes to: the induction on
`Decodes` that does not ask how a first word is decoded. -/
theorem Decodes.induction_decodeOne {P : List Word → List Instr → Prop} (h : Decodes m ws prog) (nil : P [] [])
    (short : ∀ w rest i prog, (∀ next, decodeOne m w next = .ok i) → i.extended = false → P rest prog →
      P (w :: rest) (i :: prog))
    (long : ∀ w v rest i prog, decodeOne m w v = .ok i → i.extended = true → P rest prog →
      P (w :: v :: rest) (i :: prog)) : P ws prog := by
  induction h with
  | nil => exact nil
  | whole first _ ih =>
    refine short _ _ _ _ (fun _ => decodeOne_of_whole first) ?_ ih
    rw [extended_of_decodeOne (decodeOne_of_whole (next := 0) first), (decodeFirst_whole first).2.1]
  | extended first ext _ ih =>
    have hone := (decodeOne_of_extended first).trans ext
    refine long _ _ _ _ _ hone ?_ ih
    rw [extended_of_decodeOne hone, (decodeFirst_extended first).2.1]

theorem Decodes.wf (h : Decodes m ws prog) : ∀ i ∈ prog, i.wf = true := by
  refine h.induction_decodeOne (P := fun _ prog => ∀ i ∈ prog, i.wf = true) nofun ?_ ?_
  · exact fun _ _ _ _ hone _ ih => List.forall_mem_cons.2 ⟨wf_of_decodeOne (hone 0), ih⟩
  · exact fun _ _ _ _ _ hone _ ih => List.forall_mem_cons.2 ⟨wf_of_decodeOne hone, ih⟩

/-! ### Word indices -/

theorem extendedCount_cons (i : Instr) (prog : List Instr) :
    extendedCount (i :: prog) = extendedCount prog + if i.extended then 1 else 0 := List.countP_cons

theorem wordIndex_cons_succ (i : Instr) (prog : List Instr) (n : Nat) :
    wordIndex (i :: prog) (n + 1) = wordIndex prog n + 1 + if i.extended then 1 else 0 := by
  rw [wordIndex, wordIndex, List.take_succ_cons, extendedCount_cons]
  omega

theorem Decodes.length_eq (h : Decodes m ws prog) : ws.length = prog.length + extendedCount prog := by
  refine h.induction_decodeOne (P := fun ws prog => ws.length = prog.length + extendedCount prog) rfl ?_ ?_
  · intro w rest i prog _ hx ih
    rw [extendedCount_cons, hx, List.length_cons, List.length_cons, ih, if_neg Bool.false_ne_true]
    omega
  · intro w v rest i prog _ hx ih
    rw [extendedCount_cons, hx, List.length_cons, List.length_cons, List.length_cons, ih, if_pos rfl]
    omega

/-- Instruction `n` of `prog` is what the word of `ws` at its word index decodes to with the word after it (R120). -/
def IndexedAt (m : OpcodeMap) (ws : List Word) (prog : List Instr) (n : Nat) : Prop :=
  ∀ h : n < prog.length, ∃ w, ws[wordIndex prog n]? = some w ∧
    decodeOne m w (ws.getD (wordIndex prog n + 1) 0) = .ok prog[n]

theorem Decodes.indexedAt (h : Decodes m ws prog) : ∀ n, IndexedAt m ws prog n := by
  refine h.induction_decodeOne (P := fun ws prog => ∀ n, IndexedAt m ws prog n) (fun _ => nofun) ?_ ?_
  · rintro w rest i prog hone hx ih (_ | n) hn
    · exact ⟨w, rfl, hone _⟩
    · rw [wordIndex_cons_succ, hx]
      exact ih n (Nat.lt_of_succ_lt_succ hn)
  · rintro w v rest i prog hone hx ih (_ | n) hn
    · exact ⟨w, rfl, hone⟩
    · rw [wordIndex_cons_succ, hx]
      exact ih n (Nat.lt_of_succ_lt_succ hn)

/-! ### The streaming decoder -/

/-- From nothing pending, the streaming decoder gives what the algorithm gives from the same word index (R114). -/
theorem streamFrom_eq_decodeFrom (m : OpcodeMap) (k : Nat) (ws : List Word) :
    streamFrom m none k ws = (decodeFrom m k ws).map (fun prog => (prog, none)) := by
  induction k, ws using decodeFrom.induct (m := m) with
  | case1 k => rfl
  | case2 k w rest e first => rw [decodeFrom_error first]; simp only [streamFrom, feedWord, first, Except.map]
  | case3 k w rest i first ih =>
    rw [decodeFrom_whole first]
    simp only [streamFrom, feedWord, first, ih]
    cases decodeFrom m (k + 1) rest <;> rfl
  | case4 k w op d a first => rw [decodeFrom_truncated first]; simp only [streamFrom, feedWord, first, Except.map]
  | case5 k w op d a first v rest e ext => simp only [decodeFrom, streamFrom, feedWord, first, ext, Except.map]
  | case6 k w op d a first v rest i ext ih =>
    rw [decodeFrom_extended first ext]
    simp only [streamFrom, feedWord, first, ext, ih]
    cases decodeFrom m (k + 2) rest <;> rfl

/-! ### The first offending word -/

/-- Word `w`, with `rest` after it, ends decoding with an error of kind `e`: it decodes to nothing, or its extension
word is missing (R116, R117). -/
def Offends (m : OpcodeMap) (w : Word) (rest : List Word) (e : DecodeErrorKind) : Prop :=
  decodeFirst m w = .error e ∨
    e = .truncatedExtension ∧ rest = [] ∧ ∃ op d a, decodeFirst m w = .ok (.extended op d a)

/-- A decode error names the first word that offends: the words before it decode (R117). -/
theorem decodeFrom_eq_error {k : Nat} {e : DecodeError} (h : decodeFrom m k ws = .error e) :
    ∃ before rest prog, ws = before ++ e.raw :: rest ∧ Decodes m before prog ∧ e.index = k + before.length ∧
      Offends m e.raw rest e.kind := by
  induction k, ws using decodeFrom.induct (m := m) with
  | case1 k => cases h
  | case2 k w rest e' first =>
    rw [decodeFrom_error first] at h
    cases h
    exact ⟨[], rest, [], rfl, .nil, rfl, .inl first⟩
  | case3 k w rest i first ih =>
    rw [decodeFrom_whole first] at h
    obtain ⟨before, after, prog, rfl, hdec, hidx, hoff⟩ := ih (Except.map_eq_error h)
    exact ⟨w :: before, after, i :: prog, rfl, .whole first hdec, by rw [hidx, List.length_cons]; omega, hoff⟩
  | case4 k w op d a first =>
    rw [decodeFrom_truncated first] at h
    cases h
    exact ⟨[], [], [], rfl, .nil, rfl, .inr ⟨rfl, rfl, op, d, a, first⟩⟩
  | case5 k w op d a first v rest e' ext =>
    obtain ⟨-, -, -, -, hadm⟩ := decodeFirst_extended first
    obtain ⟨i, hi, -⟩ := withExtension_of_admits hadm d a v
    rw [hi] at ext
    cases ext
  | case6 k w op d a first v rest i ext ih =>
    rw [decodeFrom_extended first ext] at h
    obtain ⟨before, after, prog, rfl, hdec, hidx, hoff⟩ := ih (Except.map_eq_error h)
    exact ⟨w :: v :: before, after, i :: prog, rfl, .extended first ext hdec,
      by rw [hidx, List.length_cons, List.length_cons]; omega, hoff⟩

end Words

/-! ### Files -/

/-- Appending a byte below a number shifts it up by eight bits (R82). -/
theorem toNat_append_byte {n : Nat} (x : BitVec n) (b : Byte) : (x ++ b).toNat = x.toNat * 2 ^ 8 + b.toNat := by
  rw [BitVec.toNat_append, ← Nat.shiftLeft_add_eq_or_of_lt b.isLt, Nat.shiftLeft_eq]

theorem wordOfBytes_eq_append (b0 b1 b2 b3 : Byte) : wordOfBytes b0 b1 b2 b3 = b0 ++ b1 ++ b2 ++ b3 := by
  apply BitVec.eq_of_getLsbD_eq
  intro i hi
  simp only [wordOfBytes, BitVec.getLsbD_or, BitVec.getLsbD_shiftLeft, BitVec.getLsbD_setWidth, BitVec.getLsbD_append]
  interval_cases i <;> simp

theorem toNat_wordOfBytes (b0 b1 b2 b3 : Byte) :
    (wordOfBytes b0 b1 b2 b3).toNat = b0.toNat * 2 ^ 24 + b1.toNat * 2 ^ 16 + b2.toNat * 2 ^ 8 + b3.toNat := by
  rw [wordOfBytes_eq_append, toNat_append_byte, toNat_append_byte, toNat_append_byte]
  ring

theorem length_wordsOfFile (bytes : List Byte) : (wordsOfFile bytes).length = bytes.length / 4 := by
  induction bytes using wordsOfFile.induct with
  | case1 b0 b1 b2 b3 rest ih =>
    simp only [wordsOfFile, List.length_cons, ih]
    omega
  | case2 bytes hshort =>
    match bytes, hshort with
    | [], _ | [_], _ | [_, _], _ | [_, _, _], _ => simp [wordsOfFile]
    | b0 :: b1 :: b2 :: b3 :: rest, hshort => exact (hshort b0 b1 b2 b3 rest rfl).elim

end Sys2Proof

namespace Sys2Proof.Proofs

/-- Settles O2: the instruction has the word's operand list, which each mode reads off the slices of the word. -/
theorem decodedOperandsFollowMode : Obligations.DecodedOperandsFollowMode := by
  intro m w next i h
  obtain ⟨hbyte, hform⟩ := decodeOne_eq_ok_iff.1 h
  rw [Instr.mode, Instr.operands, hform, (wordForm_mode_wf w next).1, AddrMode.bits_ofBits, hbyte,
    opcodeField_eq_extractLsb', ← destField_eq_extractLsb', ← src1Field_eq_extractLsb', ← field74_eq_extractLsb',
    ← field30_eq_extractLsb', ← extFlag_eq_getLsbD, ← modeField_eq_extractLsb']
  refine ⟨rfl, rfl, ?_⟩
  rcases modeField_cases w with hm | hm | hm | hm
  · rw [wordForm_register hm, hm]
    rfl
  · cases hx : extFlag w
    · rw [wordForm_literal hm hx, hm]
      rfl
    · rw [wordForm_extended hm hx, hm]
      rfl
  · rw [wordForm_indirect hm, hm]
    rfl
  · rw [wordForm_baseOffset hm, hm]
    rfl

/-- Settles O3: an instruction of the opcode fits the word's operand list exactly in an admitted mode. -/
theorem decodeAdmitsExactlyTheTable : Obligations.DecodeAdmitsExactlyTheTable := by
  intro m w next
  rw [← opcodeField_eq_extractLsb', ← modeField_eq_extractLsb']
  exact ⟨fun op hbyte => ⟨decodeOne_of_admits hbyte, decodeOne_of_not_admits hbyte⟩,
    fun h => decodeOne_of_inv_none (OpcodeMap.inv_eq_none_iff.2 h)⟩

/-- Settles O4: each mask keeps the opcode byte, the mode field and the fields that the operand list of its mode
reads. -/
theorem ignoredBitsDoNotMatter : Obligations.IgnoredBitsDoNotMatter := by
  intro m w next
  rw [← modeField_eq_extractLsb', ← extFlag_eq_getLsbD]
  refine ⟨?_, fun hmode => ?_, fun hmode => ?_, fun hmode hflag => ?_⟩
  · refine decodeOne_and _ w (by decide) (by decide) ?_
    rw [wordForm, wordForm, takesExtension, takesExtension, inlineForm, inlineForm, modeField_and _ w (by decide),
      extFlag_and _ w (by decide), destField_and _ w (by decide), src1Field_and _ w (by decide),
      field74_and _ w (by decide), field30_and _ w (by decide)]
  · have hmode' := modeField_and 0xFFFFFFF0#32 w (by decide)
    refine decodeOne_and _ w (by decide) (by decide) ?_
    rcases hmode with h | h
    · rw [wordForm_register h, wordForm_register (hmode'.trans h), destField_and _ w (by decide),
        src1Field_and _ w (by decide), field74_and _ w (by decide)]
    · rw [wordForm_indirect h, wordForm_indirect (hmode'.trans h), destField_and _ w (by decide),
        src1Field_and _ w (by decide), field74_and _ w (by decide)]
  · have hmode' := (modeField_and 0xFFFFFFF1#32 w (by decide)).trans hmode
    have hflag' := extFlag_and 0xFFFFFFF1#32 w (by decide)
    refine decodeOne_and _ w (by decide) (by decide) ?_
    cases hflag : extFlag w
    · rw [wordForm_literal hmode hflag, wordForm_literal hmode' (hflag'.trans hflag), destField_and _ w (by decide),
        src1Field_and _ w (by decide), field74_and _ w (by decide)]
    · rw [wordForm_extended hmode hflag, wordForm_extended hmode' (hflag'.trans hflag), destField_and _ w (by decide),
        src1Field_and _ w (by decide)]
  · have hmode' := (modeField_and 0xFFFFFF0F#32 w (by decide)).trans hmode
    have hflag' := (extFlag_and 0xFFFFFF0F#32 w (by decide)).trans hflag
    refine decodeOne_and _ w (by decide) (by decide) ?_
    rw [wordForm_extended hmode hflag, wordForm_extended hmode' hflag', destField_and _ w (by decide),
      src1Field_and _ w (by decide)]

/-- Settles O6, by the algorithm's own recursion over the words. -/
theorem streamingDecoderAgrees : Obligations.StreamingDecoderAgrees :=
  fun m ws => streamFrom_eq_decodeFrom m 0 ws

/-- Settles O7, by induction on the words read instruction by instruction. -/
theorem decodedProgramIndexing : Obligations.DecodedProgramIndexing := by
  intro m ws prog h
  have hdec := decode_eq_ok_iff.1 h
  exact ⟨hdec.length_eq, hdec.indexedAt⟩

/-- Settles O8: decoding stops at the first word that offends, and what offends is in that word. -/
theorem decodeErrorNamesFirstWord : Obligations.DecodeErrorNamesFirstWord := by
  intro m ws e h
  obtain ⟨before, rest, prog, rfl, hdec, hidx, hoff⟩ := decodeFrom_eq_error h
  rw [Nat.zero_add] at hidx
  refine ⟨by simp [hidx], ⟨prog, ?_⟩, ?_⟩
  · rw [hidx, List.take_left' rfl]
    exact decode_eq_ok_iff.2 hdec
  · rw [← opcodeField_eq_extractLsb', ← modeField_eq_extractLsb', ← extFlag_eq_getLsbD]
    rcases hoff with hfirst | ⟨hkind, rfl, op, d, a, hfirst⟩
    · rcases decodeOne_eq_error (decodeOne_of_error (next := 0) hfirst) with ⟨hkind, hop⟩ | ⟨hkind, hop⟩
      · rw [hkind]
        exact ⟨rfl, hop⟩
      · rw [hkind]
        exact ⟨rfl, hop⟩
    · rw [hkind]
      obtain ⟨hmode, hflag⟩ := takesExtension_iff.1 (decodeFirst_extended hfirst).2.1
      exact ⟨by rw [hidx, List.length_append, List.length_singleton], hmode, hflag⟩

/-- Settles O9: the operand list of a word is well formed, and no instruction is in a mode outside its opcode's. -/
theorem decodedProgramsAreWellFormed : Obligations.DecodedProgramsAreWellFormed :=
  fun _ _ _ h i hi => ⟨(decode_eq_ok_iff.1 h).wf i hi, i.admits_mode⟩

/-- Settles O10: the Decoder computes each of them. -/
theorem sampleWordsDecode : Obligations.SampleWordsDecode :=
  ⟨rfl, rfl, rfl, rfl, rfl, rfl, rfl, rfl, rfl⟩

/-- Settles O11: a word of four bytes is the bytes put one after the other. -/
theorem fileBytesGroupBigEndian : Obligations.FileBytesGroupBigEndian :=
  ⟨fun b0 b1 b2 b3 _ => ⟨_, rfl, toNat_wordOfBytes b0 b1 b2 b3⟩, length_wordsOfFile⟩

end Sys2Proof.Proofs
end

section
/-!
PROOFS. Narrow reads of a written word, and the canonical form (spec/20_memory.md). A read inside a write gives the
digits of the value in base 256 that it covers; and a canonical memory lists exactly the bytes that differ from the
fill, in one order, so that its bytes determine it.
-/

namespace Sys2Proof.Machine

/-! ### Reads inside a write -/

/-- `n` bytes read from `k` bytes into a write of `total` bytes are digits `k` to `k + n - 1` of its value (R60). -/
theorem Memory.readLE_writeLE_inside (m : Memory) (a v total n : Nat) : ∀ k, k + n ≤ total →
    (m.writeLE a total v).readLE (a + k) n = v / 256 ^ k % 256 ^ n := by
  induction n with
  | zero => intro k _; rw [Nat.pow_zero, Nat.mod_one]; rfl
  | succ n ih =>
    intro k hk
    have hdigits : v / 256 ^ k % 256 ^ (n + 1) = v / 256 ^ k % 256 + 256 * (v / 256 ^ (k + 1) % 256 ^ n) := by
      rw [Nat.pow_succ', Nat.mod_mul, Nat.div_div_eq_div_mul, ← Nat.pow_succ]
    rw [Memory.readLE, Memory.byte_writeLE_inside total m a v k (by omega), Nat.add_assoc, ih (k + 1) (by omega),
      hdigits, BitVec.toNat_ofNat]

/-- Digits `k` to `k + n - 1` of a word in base 256 are the slice of its bits from 8k on. -/
theorem ofNat_div_mod_pow_eq_extractLsb' (v : Word) (k n : Nat) :
    BitVec.ofNat 32 (v.toNat / 256 ^ k % 256 ^ n) = (v.extractLsb' (8 * k) (8 * n)).setWidth 32 := by
  apply BitVec.eq_of_toNat_eq
  rw [BitVec.toNat_setWidth, BitVec.extractLsb'_toNat, Nat.shiftRight_eq_div_pow, Nat.pow_mul, Nat.pow_mul,
    BitVec.toNat_ofNat]

/-- A read in bounds inside a word just written gives the slice of the word's bits that it covers (R60). -/
theorem Memory.read_writeLE_four {m : Memory} {a : Nat} (v : Word) (h : a + 4 ≤ m.capacity) {k n : Nat}
    (hk : k + n ≤ 4) :
    (m.writeLE a 4 v.toNat).read (a + k) n = .ok ((v.extractLsb' (8 * k) (8 * n)).setWidth 32) := by
  rw [Memory.read_of_le (by rw [Memory.writeLE_capacity]; omega), Memory.readLE_writeLE_inside m a _ 4 n k hk,
    ofNat_div_mod_pow_eq_extractLsb']

/-! ### The canonical form -/

/-- In a list of cells with rising addresses an address is found with its value exactly where it is listed with it. -/
theorem lookupCell_eq_some_iff {cells : List Host.Cell} (h : cells.Pairwise (fun x y => x.1 < y.1)) (a : Nat)
    (v : Byte) : lookupCell a cells = some v ↔ (a, v) ∈ cells := by
  induction cells with
  | nil => simp [lookupCell]
  | cons c rest ih =>
    obtain ⟨k, w⟩ := c
    obtain ⟨hhead, htail⟩ := List.pairwise_cons.1 h
    rw [lookupCell, List.mem_cons, Prod.mk.injEq]
    split
    case isTrue hk =>
      subst hk
      have hrest : (k, v) ∉ rest := fun hm => Nat.lt_irrefl k (hhead _ hm)
      simp [hrest, eq_comm]
    case isFalse hk => rw [ih htail]; simp [Ne.symm hk]

/-- A canonical memory lists a byte at an address exactly when the byte is there and is not the fill. -/
theorem Memory.mem_cells_iff {m : Memory} (h : m.wf) (a : Nat) (v : Byte) :
    (a, v) ∈ m.cells ↔ m.byte a = v ∧ v ≠ m.fill := by
  obtain ⟨hrising, hlisted, -⟩ := h
  constructor
  · intro hm
    rw [Memory.byte, (lookupCell_eq_some_iff hrising a v).2 hm]
    exact ⟨rfl, (hlisted _ hm).2⟩
  · rintro ⟨rfl, hfill⟩
    cases hl : lookupCell a m.cells with
    | none => rw [Memory.byte, hl] at hfill; exact (hfill rfl).elim
    | some w => rw [Memory.byte, hl]; exact (lookupCell_eq_some_iff hrising a w).1 hl

end Sys2Proof.Machine

namespace Sys2Proof.Proofs

open Sys2Proof.Machine

/-- Settles O15: both widths read inside the four bytes just written. -/
theorem narrowReadsSeeLowBytesFirst : Obligations.NarrowReadsSeeLowBytesFirst := by
  intro m a v h
  exact ⟨_, Memory.write_of_le h v, fun k hk => Memory.read_writeLE_four v h (n := 1) (by omega),
    fun k hk => Memory.read_writeLE_four v h (n := 2) (by omega)⟩

/-- Settles O17: the two lists of cells have the same members, and rising addresses leave them one order. -/
theorem canonicalMemoriesWithEqualBytesAreEqual : Obligations.CanonicalMemoriesWithEqualBytesAreEqual := by
  intro m m' h h' hcap hfill hbyte
  have hmem : ∀ c, c ∈ m.cells ↔ c ∈ m'.cells := by
    rintro ⟨a, v⟩
    rw [Memory.mem_cells_iff h, Memory.mem_cells_iff h', hbyte, hfill]
  have hcells : m.cells = m'.cells :=
    h.1.eq_of_mem_iff h'.1 hmem
  cases m
  cases m'
  cases hcap
  cases hfill
  cases hcells
  rfl

end Sys2Proof.Proofs
end

section
/-!
PROOFS. The instructions (spec/41 to spec/44). Every meaning is one write with a resolved value, or the raise of what
the resolution raised: so an instruction's effect and its frame follow from the equation that gives its outcome.
-/

namespace Sys2Proof.Machine

/-! ### The memory operand -/

/-- The word read is the number its four bytes make (R53). -/
theorem toNat_ofNat_wordAt (m : Memory) (a : Nat) : (BitVec.ofNat 32 (wordAt m a)).toNat = wordAt m a := by
  rw [BitVec.toNat_ofNat, Nat.mod_eq_of_lt (wordAt_lt m a)]

/-- A source in RegisterIndirect mode, in bounds (R123). -/
theorem srcIndirect_of_le {b : RegIdx} {s : State} (h : (s.reg b).toNat + 4 ≤ s.mem.capacity) :
    srcIndirect b s = .ok (BitVec.ofNat 32 (wordAt s.mem (s.reg b).toNat)) := Memory.read32_of_le h

/-- A source in RegisterIndirect mode, out of bounds (R52). -/
theorem srcIndirect_of_lt {b : RegIdx} {s : State} (h : s.mem.capacity < (s.reg b).toNat + 4) :
    srcIndirect b s = .error (.outOfBoundsMemoryAccess (s.reg b).toNat 4) := Memory.read32_of_lt h

/-- A source in BaseOffset mode, in bounds (R123). -/
theorem srcBaseOffset_of_le {b : RegIdx} {o : Word} {s : State} (h : (s.reg b).toNat + o.toNat + 4 ≤ s.mem.capacity) :
    srcBaseOffset b o s = .ok (BitVec.ofNat 32 (wordAt s.mem ((s.reg b).toNat + o.toNat))) := Memory.read32_of_le h

/-- A source in BaseOffset mode, out of bounds at the unwrapped sum (R52, R125). -/
theorem srcBaseOffset_of_lt {b : RegIdx} {o : Word} {s : State} (h : s.mem.capacity < (s.reg b).toNat + o.toNat + 4) :
    srcBaseOffset b o s = .error (.outOfBoundsMemoryAccess ((s.reg b).toNat + o.toNat) 4) := Memory.read32_of_lt h

/-! ### What an outcome says -/

/-- The difference of two words as a number (R11). -/
theorem toNat_sub32 (x y : Word) : (sub32 x y).toNat = (2 ^ 32 + x.toNat - y.toNat) % 2 ^ 32 := by
  have hy := y.isLt
  rw [sub32, BitVec.toNat_sub]
  congr 1
  omega

section Outcomes

variable {i : Instr} {s : State}

/-- An instruction that resolves its source and writes a register with what it makes of the value. -/
theorem writesRegister_of_commit {d : RegIdx} {src : Except RuntimeError Word} {f : Word → Word} {P : Word → Prop}
    {v : Word} (hexec : exec i s = s.commit src (fun x => s.setReg d (f x))) (hsrc : src = .ok v) (hv : P (f v)) :
    WritesRegister i s d P := by
  subst hsrc
  refine ⟨s.setReg d (f v), hexec, ?_, fun r hr => s.reg_setReg_of_ne d r _ hr, ⟨fun _ => rfl, rfl⟩, rfl,
    ⟨rfl, rfl, rfl⟩, ⟨rfl, rfl, rfl⟩, ⟨rfl, rfl, rfl, rfl⟩⟩
  rwa [State.reg_setReg_self]

/-- An instruction whose resolution raised raises the same error and writes nothing (R126). -/
theorem raises_of_commit {α : Type} {r : Except RuntimeError α} {k : α → State} {e : RuntimeError}
    (hexec : exec i s = s.commit r k) (hr : r = .error e) : Raises i s e := by
  subst hr
  exact hexec

/-- An instruction that stores a register, in bounds (R145). -/
theorem storesWord_of_storeAt {addr : Nat} {r : RegIdx} (hexec : exec i s = storeAt addr r s)
    (hb : addr + 4 ≤ s.mem.capacity) : StoresWord i s addr (s.reg r) := by
  have hwrite : s.mem.write32 addr (s.reg r) = .ok (s.mem.writeLE addr 4 (s.reg r).toNat) := Memory.write_of_le hb _
  refine ⟨s.setMem (s.mem.writeLE addr 4 (s.reg r).toNat), ?_, fun k hk => ?_, ⟨fun a ha => ?_, ?_, ?_⟩, fun _ => rfl,
    rfl, ⟨rfl, rfl, rfl⟩, ⟨rfl, rfl, rfl⟩, ⟨rfl, rfl, rfl, rfl⟩⟩
  · rw [hexec, storeAt, hwrite, State.commit_ok]
  · rw [State.setMem_mem, Memory.byte_writeLE_inside 4 _ _ _ k hk, ofNat_div_pow_eq_extractLsb']
  · exact Memory.byte_writeLE_outside 4 _ _ _ a ha
  · exact Memory.writeLE_capacity 4 _ _ _
  · exact Memory.writeLE_fill 4 _ _ _

/-- The index a jump goes to is the floor of its target divided by four (R166). -/
theorem toNat_targetIndex (t : Word) : (targetIndex t).toNat = t.toNat / 4 := by
  rw [targetIndex, BitVec.toNat_ushiftRight, Nat.shiftRight_eq_div_pow]

/-- An instruction whose outcome is a jump (R165). -/
theorem jumpsTo_of_exec {t : Word} (hexec : exec i s = .next (s.jumpTo (targetIndex t))) :
    JumpsTo i s (t.toNat / 4) :=
  ⟨_, hexec, toNat_targetIndex t, rfl, rfl, fun _ => rfl, ⟨fun _ => rfl, rfl⟩, rfl, ⟨rfl, rfl, rfl⟩,
    ⟨rfl, rfl, rfl, rfl⟩⟩

end Outcomes

/-! ### The condition of IFN -/

theorem flagIsEq_iff {c : Byte} : flagIsEq c = true ↔ c = 0 := by
  simp [flagIsEq, CmpCode.byte]

theorem jumpIfEq_of_eq {s : State} (h : s.cmp = 0) (t : Word) :
    jumpIfEq (.ok t) s = .next (s.jumpTo (targetIndex t)) := by
  rw [jumpIfEq, if_pos (flagIsEq_iff.2 h)]
  rfl

theorem jumpIfEq_of_ne {s : State} (h : s.cmp ≠ 0) (src : Except RuntimeError Word) : jumpIfEq src s = .next s :=
  if_neg (mt flagIsEq_iff.1 h)

/-- CMP's byte, by the two values compared (R160). -/
theorem byte_compareCode (x y : Word) : (compareCode x y).byte = if x.toNat = y.toNat then 0#8 else 1#8 := by
  rw [compareCode]
  by_cases h : x = y
  · rw [if_pos h, if_pos (congrArg BitVec.toNat h)]
    rfl
  · rw [if_neg h, if_neg (mt BitVec.eq_of_toNat_eq h)]
    rfl

end Sys2Proof.Machine

namespace Sys2Proof.Proofs

open Sys2Proof.Machine

/-- Settles O21: SET writes the value its source resolves to. -/
theorem setWritesItsSource : Obligations.SetWritesItsSource := by
  intro d a b v o s
  refine ⟨?_, ?_, ?_, fun h => ?_, fun h => ?_⟩
  · exact writesRegister_of_commit (f := id) (src := srcRegister b s) rfl rfl rfl
  · exact writesRegister_of_commit (f := id) (src := srcImmediate v s) rfl rfl rfl
  · exact writesRegister_of_commit (f := id) (src := srcImmediate v s) rfl rfl rfl
  · exact writesRegister_of_commit (f := id) rfl (srcIndirect_of_le h) (toNat_ofNat_wordAt _ _)
  · exact writesRegister_of_commit (f := id) rfl (srcBaseOffset_of_le h) (toNat_ofNat_wordAt _ _)

/-- Settles O22: SUB writes the difference of its register and the value its source resolves to, or raises what the
source raised. -/
theorem subWritesTheWrappedDifference : Obligations.SubWritesTheWrappedDifference := by
  intro d a b v o s
  refine ⟨?_, ?_, ?_, fun h => ?_, fun h => ?_, fun h => ?_, fun h => ?_⟩
  · exact writesRegister_of_commit (src := srcRegister b s) rfl rfl (toNat_sub32 _ _)
  · exact writesRegister_of_commit (src := srcImmediate v s) rfl rfl (toNat_sub32 _ _)
  · exact writesRegister_of_commit (src := srcImmediate v s) rfl rfl (toNat_sub32 _ _)
  · exact writesRegister_of_commit rfl (srcIndirect_of_le h) (by rw [toNat_sub32, toNat_ofNat_wordAt])
  · exact raises_of_commit rfl (srcIndirect_of_lt h)
  · exact writesRegister_of_commit rfl (srcBaseOffset_of_le h) (by rw [toNat_sub32, toNat_ofNat_wordAt])
  · exact raises_of_commit rfl (srcBaseOffset_of_lt h)

/-- Settles O23: MUL writes the product of its register and the value its source resolves to, or raises what the source
raised. -/
theorem mulWritesTheWrappedProduct : Obligations.MulWritesTheWrappedProduct := by
  intro d a b v o s
  refine ⟨?_, ?_, ?_, fun h => ?_, fun h => ?_, fun h => ?_, fun h => ?_⟩
  · exact writesRegister_of_commit (src := srcRegister b s) rfl rfl (BitVec.toNat_mul _ _)
  · exact writesRegister_of_commit (src := srcImmediate v s) rfl rfl (BitVec.toNat_mul _ _)
  · exact writesRegister_of_commit (src := srcImmediate v s) rfl rfl (BitVec.toNat_mul _ _)
  · exact writesRegister_of_commit rfl (srcIndirect_of_le h) (by rw [BitVec.toNat_mul, toNat_ofNat_wordAt])
  · exact raises_of_commit rfl (srcIndirect_of_lt h)
  · exact writesRegister_of_commit rfl (srcBaseOffset_of_le h) (by rw [BitVec.toNat_mul, toNat_ofNat_wordAt])
  · exact raises_of_commit rfl (srcBaseOffset_of_lt h)

/-- Settles O24: each format of SD is the store of its dest register at its address. -/
theorem sdStoresItsRegister : Obligations.SdStoresItsRegister := by
  intro d a b v o s
  exact ⟨storesWord_of_storeAt rfl, storesWord_of_storeAt rfl, storesWord_of_storeAt rfl, storesWord_of_storeAt rfl⟩

/-- Settles O25: the three addresses are what they are defined to be, and a sum of 2^32 or more lies outside a memory of
at most 2^32 bytes. -/
theorem effectiveAddressesDoNotWrap : Obligations.EffectiveAddressesDoNotWrap := by
  intro b v o s
  refine ⟨rfl, rfl, rfl, fun d a hsum hcap => ⟨?_, ?_⟩⟩
  · exact raises_of_commit rfl (srcBaseOffset_of_lt (by omega))
  · exact raises_of_commit rfl (Memory.write_of_lt (by rw [eaBaseOffset]; omega) _)

/-- Settles O26: the ten forms with an address raise there; no other instruction has one. -/
theorem memoryFormsRaiseOutOfBounds : Obligations.MemoryFormsRaiseOutOfBounds := by
  intro i s addr haddr hb
  cases i with
  | setM | subM | mulM | setB | subB | mulB =>
    cases haddr
    exact raises_of_commit rfl (Memory.read32_of_lt hb)
  | sdI | sdX | sdM | sdB =>
    cases haddr
    exact raises_of_commit rfl (Memory.write_of_lt hb _)
  | _ => cases haddr

/-- Settles O27: CMP's outcome is the write of the compare byte. -/
theorem cmpRecordsEqualOrNot : Obligations.CmpRecordsEqualOrNot := by
  intro d a b s
  exact ⟨_, rfl, byte_compareCode _ _, fun _ => rfl, ⟨fun _ => rfl, rfl⟩, ⟨rfl, rfl, rfl⟩, ⟨rfl, rfl, rfl⟩,
    ⟨rfl, rfl, rfl, rfl⟩⟩

/-- Settles O28: JMP's outcome is the jump to its target's index. -/
theorem jmpGoesToTargetDivFour : Obligations.JmpGoesToTargetDivFour := by
  intro d a b v s
  exact ⟨jumpsTo_of_exec rfl, jumpsTo_of_exec rfl, jumpsTo_of_exec rfl⟩

/-- Settles O29: IFN's outcome is JMP's on EQ, and the state as it is on any other byte. -/
theorem ifnJumpsExactlyOnEq : Obligations.IfnJumpsExactlyOnEq := by
  intro d a b v s
  refine ⟨fun h => ⟨?_, ?_, ?_⟩, fun h => ⟨?_, ?_, ?_⟩⟩
  · exact jumpsTo_of_exec (jumpIfEq_of_eq h (s.reg b))
  · exact jumpsTo_of_exec (jumpIfEq_of_eq h v)
  · exact jumpsTo_of_exec (jumpIfEq_of_eq h v)
  · exact jumpIfEq_of_ne h _
  · exact jumpIfEq_of_ne h _
  · exact jumpIfEq_of_ne h _

/-- Settles O30: the outcome of HLT is `State.halt`. -/
theorem hltHaltsInPlace : Obligations.HltHaltsInPlace := fun _ _ => rfl

/-- Settles O31: each reserved opcode's outcome is the raise of its own mnemonic. -/
theorem reservedOpcodesRaise : Obligations.ReservedOpcodesRaise :=
  fun _ _ => ⟨rfl, rfl, rfl, rfl, rfl, rfl, rfl, rfl, rfl, rfl, rfl, rfl, rfl, rfl, rfl, rfl, rfl, rfl, rfl, rfl, rfl,
    rfl, rfl, rfl, rfl⟩

/-- Settles O32: the two formats resolve the same value. -/
theorem inlineAndExtendedAgree : Obligations.InlineAndExtendedAgree :=
  fun _ _ _ _ => ⟨rfl, rfl, rfl, rfl, rfl, rfl, rfl⟩

/-- Settles O33: no meaning reads the fields it does not name. -/
theorem unusedFieldsHaveNoEffect : Obligations.UnusedFieldsHaveNoEffect :=
  fun _ _ _ _ _ _ _ _ => ⟨rfl, rfl, rfl, rfl, rfl, rfl, rfl, rfl, rfl, rfl, rfl, rfl, rfl, rfl, rfl, rfl⟩

end Sys2Proof.Proofs
end

section
/-!
PROOFS. The step (spec/45_sequencer.md). What an instruction's effect leaves alone and which effect writes what; when a
step takes which branch; and `StepOutcome`, everything a step can do by the state it leaves, from which the statements
about every step follow.
-/

namespace Sys2Proof.Machine

/-! ### What an effect changes -/

/-- What no instruction writes: the program, sp, arith, intr, the memory's parameters, the step limit and the decoder's
extension state (R20). -/
def KeepsFixed (s t : State) : Prop :=
  t.program = s.program ∧ KeepsInert s t ∧ t.mem.capacity = s.mem.capacity ∧ t.mem.fill = s.mem.fill ∧
    t.stepLimit = s.stepLimit ∧ t.ext = s.ext

section Effects

variable {i : Instr} {s t : State}

theorem Effect.keepsFixed (h : Effect i s t) : KeepsFixed s t := by
  cases h with
  | store =>
    exact ⟨rfl, ⟨rfl, rfl, rfl⟩, Memory.writeLE_capacity _ _ _ _, Memory.writeLE_fill _ _ _ _, rfl, rfl⟩
  | write | compare | jump | fallThrough | halt | outOfBounds | unimplemented =>
    exact ⟨rfl, ⟨rfl, rfl, rfl⟩, rfl, rfl, rfl, rfl⟩

/-- The sequencer counts the steps, not the instruction (R212). -/
theorem Effect.steps_eq (h : Effect i s t) : t.steps = s.steps := by cases h <;> rfl

theorem Effect.mem_wf (h : Effect i s t) (hw : s.mem.wf) : t.mem.wf := by
  cases h with
  | store addr _ _ fits => exact Memory.wf_writeLE 4 hw fits _
  | write | compare | jump | fallThrough | halt | outOfBounds | unimplemented => exact hw

/-- A byte that changed is one of the four an SD stored (R51). -/
theorem Effect.of_byte_ne (h : Effect i s t) {a : Nat} (hne : t.mem.byte a ≠ s.mem.byte a) :
    i.opcode = .sd ∧ ∃ addr, Instr.address i s = some addr ∧ addr ≤ a ∧ a < addr + 4 := by
  cases h with
  | store addr op at_addr _ =>
    have hinside : ¬(a < addr ∨ addr + 4 ≤ a) := fun hout => hne (Memory.byte_writeLE_outside 4 _ _ _ a hout)
    exact ⟨op, addr, at_addr, by omega, by omega⟩
  | write | compare | jump | fallThrough | halt | outOfBounds | unimplemented => exact (hne rfl).elim

/-- A register that changed is the dest of a SET, SUB or MUL (R20). -/
theorem Effect.of_reg_ne (h : Effect i s t) {r : RegIdx} (hne : t.reg r ≠ s.reg r) :
    (i.opcode = .set ∨ i.opcode = .sub ∨ i.opcode = .mul) ∧ r = i.form.dest := by
  cases h with
  | write v op => exact ⟨op, by_contra fun hr => hne (s.reg_setReg_of_ne _ r v hr)⟩
  | store | compare | jump | fallThrough | halt | outOfBounds | unimplemented => exact (hne rfl).elim

/-- The compare flag changes only to the EQ or NE of a CMP (R29). -/
theorem Effect.cmp_cases (h : Effect i s t) :
    t.cmp = s.cmp ∨ i.opcode = .cmp ∧ (t.cmp = CmpCode.eq.byte ∨ t.cmp = CmpCode.ne.byte) := by
  cases h with
  | compare code op eqOrNe => exact .inr ⟨op, eqOrNe.imp (congrArg CmpCode.byte) (congrArg CmpCode.byte)⟩
  | write | store | jump | fallThrough | halt | outOfBounds | unimplemented => exact .inl rfl

/-- pc and the jump mark change together, by a JMP or by an IFN on EQ, and pc to an index a jump can name (R213). -/
theorem Effect.pc_cases (h : Effect i s t) :
    t.pc = s.pc ∧ t.jumped = s.jumped ∨
    (i.opcode = .jmp ∨ i.opcode = .ifn ∧ s.cmp = 0) ∧ t.jumped = true ∧ ∃ target, t.pc = targetIndex target := by
  cases h with
  | jump target op => exact .inr ⟨op.imp_right (And.imp_right flagIsEq_iff.1), rfl, target, rfl⟩
  | write | store | compare | fallThrough | halt | outOfBounds | unimplemented => exact .inl ⟨rfl, rfl⟩

end Effects

/-- The index a jump names is at most 0x3FFFFFFF (R25). -/
theorem toNat_targetIndex_le (t : Word) : (targetIndex t).toNat ≤ 0x3FFFFFFF := by
  have ht := t.isLt
  rw [toNat_targetIndex]
  omega

/-! ### Jumps -/

/-- The target of a jump: slot 2, a register in the register modes, else the value (R165). -/
def Form.target (f : Form) (s : State) : Word :=
  match f with
  | .r _ _ b | .m _ _ b | .b _ _ b _ => s.reg b
  | .i _ _ v | .x _ _ v => v

section Jumps

variable {i : Instr} {s : State}

/-- JMP, and IFN on EQ, jump to the index their target names (R165, R168). -/
theorem exec_of_jump (h : i.opcode = .jmp ∨ i.opcode = .ifn ∧ s.cmp = 0) :
    exec i s = .next (s.jumpTo (targetIndex (Form.target i.form s))) := by
  rcases h with h | ⟨h, hcmp⟩
  · cases i with
    | jmpR | jmpI | jmpX => rfl
    | _ => cases h
  · cases i with
    | ifnR | ifnI | ifnX => exact jumpIfEq_of_eq hcmp _
    | _ => cases h

/-- IFN on any other code changes nothing (R168). -/
theorem exec_of_ifn_ne (h : i.opcode = .ifn) (hcmp : s.cmp ≠ 0) : exec i s = .next s := by
  cases i with
  | ifnR | ifnI | ifnX => exact jumpIfEq_of_ne hcmp _
  | _ => cases h

end Jumps

/-! ### The branches of a step -/

section Branches

variable {s t : State} {i : Instr}

theorem State.limitReached_iff : s.limitReached = true ↔ ∃ limit, s.stepLimit = some limit ∧ limit ≤ s.steps := by
  rw [State.limitReached]
  cases s.stepLimit <;> simp

theorem step_of_stopped (h : s.status ≠ .running) : step s = .next s := if_neg h

theorem step_of_limitReached (hr : s.status = .running) (hl : s.limitReached = true) :
    step s = .next s.exceedLimit := by
  rw [step, stepWith, if_pos hr, if_pos hl]

theorem step_of_fetch_none (hr : s.status = .running) (hl : s.limitReached = false) (hf : s.fetch = none) :
    step s = .next (s.raise (.programCounterOverrun s.pc)) := by
  simp only [step, stepWith, hr, hl, hf, if_true, Bool.false_eq_true, if_false]

/-- A step that fetches executes the instruction with the jump mark cleared, then advances or stops (R212). -/
theorem step_of_exec (hr : s.status = .running) (hl : s.limitReached = false) (hf : s.fetch = some i)
    (he : exec i s.beginInstr = .next t) : step s = .next t.retire := by
  simp only [step, stepWith, hr, hl, hf, he, if_true, Bool.false_eq_true, if_false]

theorem step_of_exec_running (hr : s.status = .running) (hl : s.limitReached = false) (hf : s.fetch = some i)
    (he : exec i s.beginInstr = .next t) (ht : t.status = .running) : step s = .next t.advance := by
  rw [step_of_exec hr hl hf he, State.retire_of_running ht]

theorem step_of_exec_stopped (hr : s.status = .running) (hl : s.limitReached = false) (hf : s.fetch = some i)
    (he : exec i s.beginInstr = .next t) (ht : t.status ≠ .running) : step s = .next t := by
  rw [step_of_exec hr hl hf he, State.retire_of_stopped ht]

theorem step_total (s : State) : ∃ t, step s = .next t := by
  by_cases hr : s.status = .running
  case neg => exact ⟨s, step_of_stopped hr⟩
  case pos =>
    cases hl : s.limitReached with
    | true => exact ⟨_, step_of_limitReached hr hl⟩
    | false =>
      cases hf : s.fetch with
      | none => exact ⟨_, step_of_fetch_none hr hl hf⟩
      | some i =>
        obtain ⟨u, hu⟩ := exec_total i s.beginInstr
        exact ⟨_, step_of_exec hr hl hf hu⟩

/-! ### Everything a step can do -/

/-- The outcomes of a step of `s`, by the state it leaves: a machine that is not Running stays; the limit, the end of
the program, a HLT, an access out of bounds or a reserved opcode stops it; else the instruction has its effect and the
machine advances. -/
inductive StepOutcome (s : State) : State → Prop where
  | stays (stopped : s.status ≠ .running) : StepOutcome s s
  | limit (running : s.status = .running) (reached : s.limitReached = true) : StepOutcome s s.exceedLimit
  | overrun (running : s.status = .running) (past : s.dis.length ≤ s.pc.toNat) :
      StepOutcome s (s.raise (.programCounterOverrun s.pc))
  | halts (form : Form) (running : s.status = .running) (fetched : s.fetch = some (.hlt form)) :
      StepOutcome s s.beginInstr.halt
  | outOfBounds (i : Instr) (addr : Nat) (running : s.status = .running) (fetched : s.fetch = some i)
      (at_addr : Instr.address i s = some addr) (beyond : s.mem.capacity < addr + 4) :
      StepOutcome s (s.beginInstr.raise (.outOfBoundsMemoryAccess addr 4))
  | unimplemented (i : Instr) (running : s.status = .running) (fetched : s.fetch = some i)
      (reserved : i.opcode.implemented = false) : StepOutcome s (s.beginInstr.raise (.unimplementedOpcode i.opcode))
  | runsOn (i : Instr) (u : State) (running : s.status = .running) (below : s.limitReached = false)
      (fetched : s.fetch = some i) (effect : Effect i s.beginInstr u) (on : u.status = .running) :
      StepOutcome s u.advance

theorem step_outcome (h : step s = .next t) : StepOutcome s t := by
  rcases step_cases h with ⟨hr, rfl⟩ | ⟨hr, hl, rfl⟩ | ⟨hr, -, hf, rfl⟩ | ⟨i, u, hr, hl, hf, he, rfl⟩
  · exact .stays hr
  · exact .limit hr hl
  · exact .overrun hr (s.fetch_eq_none_iff.1 hf)
  · by_cases hu : u.status = .running
    · rw [State.retire_of_running hu]
      exact .runsOn i u hr hl hf he hu
    · rw [State.retire_of_stopped hu]
      cases he with
      | write | store | compare | jump | fallThrough => exact (hu hr).elim
      | halt form isHlt => exact .halts form hr (isHlt ▸ hf)
      | outOfBounds addr at_addr beyond => exact .outOfBounds i addr hr hf at_addr beyond
      | unimplemented op => exact .unimplemented i hr hf op

theorem StepOutcome.keepsFixed (h : StepOutcome s t) : KeepsFixed s t := by
  cases h with
  | runsOn i u _ _ _ effect _ => exact effect.keepsFixed
  | stays | limit | overrun | halts | outOfBounds | unimplemented => exact ⟨rfl, ⟨rfl, rfl, rfl⟩, rfl, rfl, rfl, rfl⟩

/-- A step that stops the machine changes nothing but the status and the jump mark (R216, R236). -/
theorem StepOutcome.eq_of_stops (h : StepOutcome s t) (ht : t.status ≠ .running) :
    t = { s with status := t.status, jumped := t.jumped } := by
  cases h with
  | runsOn i u _ _ _ _ on => exact (ht on).elim
  | stays | limit | overrun | halts | outOfBounds | unimplemented => rfl

/-- A step of a running machine counts exactly when the machine runs on, and then its limit was not reached (R228). -/
theorem StepOutcome.steps_cases (h : StepOutcome s t) (hr : s.status = .running) :
    t.status ≠ .running ∧ t.steps = s.steps ∨
    t.status = .running ∧ t.steps = s.steps + 1 ∧ s.limitReached = false := by
  cases h with
  | stays stopped => exact (stopped hr).elim
  | runsOn i u _ below _ effect on => exact .inr ⟨on, congrArg (· + 1) effect.steps_eq, below⟩
  | limit | overrun | halts | outOfBounds | unimplemented => exact .inl ⟨nofun, rfl⟩

theorem State.reg_congr (h : t.regs = s.regs) (r : RegIdx) : t.reg r = s.reg r := by
  rw [State.reg, State.reg, h]

/-- What a step of a running machine that fetches `i` writes is what the effect of `i` writes. -/
theorem StepOutcome.writes_cases (h : StepOutcome s t) :
    (t.mem = s.mem ∧ t.regs = s.regs ∧ t.cmp = s.cmp ∧ (t.jumped = true → s.jumped = true)) ∨
    ∃ i u, s.fetch = some i ∧ Effect i s.beginInstr u ∧ t.mem = u.mem ∧ t.regs = u.regs ∧ t.cmp = u.cmp ∧
      t.jumped = u.jumped := by
  cases h with
  | stays | limit | overrun => exact .inl ⟨rfl, rfl, rfl, id⟩
  | halts | outOfBounds | unimplemented => exact .inl ⟨rfl, rfl, rfl, nofun⟩
  | runsOn i u _ _ fetched effect _ => exact .inr ⟨i, u, fetched, effect, rfl, rfl, rfl, rfl⟩

/-! ### The data invariant -/

/-- Stopping the machine keeps the invariant. -/
theorem State.Inv.stop (h : s.Inv) {status : RunStatus} (jumped : Bool) (hidle : status ≠ .idle)
    (hrun : status ≠ .running) : ({ s with status := status, jumped := jumped } : State).Inv :=
  { memWf := h.memWf, inert := h.inert, cmpCode := h.cmpCode, progLength := h.progLength, progWf := h.progWf,
    idleFresh := fun hi => (hidle hi).elim, pcBound := fun hr => (hrun hr).elim, notPending := h.notPending,
    withinLimit := h.withinLimit }

/-- pc keeps its bound (R25): a jump stays in the range of jumps, and any other instruction was fetched below N. -/
theorem advance_pc_bound {u : State} (hf : s.fetch = some i) (he : Effect i s.beginInstr u) :
    u.advance.pc.toNat ≤ s.dis.length ∨ u.advance.pc.toNat ≤ 0x3FFFFFFF := by
  rw [State.advance_pc]
  rcases he.pc_cases with ⟨hpc, hjumped⟩ | ⟨-, hjumped, target, hpc⟩
  · obtain ⟨hlt, -⟩ := List.getElem?_eq_some_iff.1 hf
    rw [hjumped, hpc, State.beginInstr_jumped, State.beginInstr_pc, if_neg Bool.false_ne_true, BitVec.toNat_add]
    exact .inl ((Nat.mod_le _ _).trans hlt)
  · rw [hjumped, hpc, if_pos rfl]
    exact .inr (toNat_targetIndex_le target)

/-- An instruction after which the machine runs on keeps the invariant through the advance. -/
theorem State.Inv.advance {u : State} (h : s.Inv) (hl : s.limitReached = false) (hf : s.fetch = some i)
    (he : Effect i s.beginInstr u) (hu : u.status = .running) : u.advance.Inv := by
  obtain ⟨hprog, ⟨hsp, harith, hintr⟩, -, -, hlimit, hext⟩ := he.keepsFixed
  have hdis : u.advance.dis = s.dis := congrArg (Option.getD · []) hprog
  exact {
    memWf := he.mem_wf h.memWf
    inert := ⟨hsp.trans h.inert.1, harith.trans h.inert.2.1, hintr.trans h.inert.2.2⟩
    cmpCode := he.cmp_cases.elim (fun hcmp => hcmp ▸ h.cmpCode) And.right
    progLength := hdis ▸ h.progLength
    progWf := hdis ▸ h.progWf
    idleFresh := fun hi => RunStatus.noConfusion (hu.symm.trans hi)
    pcBound := fun _ => hdis ▸ advance_pc_bound hf he
    notPending := hext.trans h.notPending
    withinLimit := fun limit hsome => by
      have hlt := s.steps_lt_of_not_limitReached (hlimit ▸ hsome) hl
      rw [State.advance_steps, he.steps_eq]
      exact hlt }

theorem StepOutcome.inv (h : StepOutcome s t) (hs : s.Inv) : t.Inv := by
  cases h with
  | stays => exact hs
  | limit | overrun => exact hs.stop s.jumped nofun nofun
  | halts | outOfBounds | unimplemented => exact hs.stop false nofun nofun
  | runsOn i u _ below fetched effect on => exact hs.advance below fetched effect on

/-! ### Why a machine stopped -/

theorem State.StopExplained.of_running (h : s.status = .running) : s.StopExplained := by
  rw [State.StopExplained, h]
  trivial

theorem StepOutcome.stopExplained (h : StepOutcome s t) (hs : s.StopExplained) : t.StopExplained := by
  cases h with
  | stays => exact hs
  | limit _ reached => exact reached
  | overrun _ past => exact ⟨rfl, rfl, past⟩
  | halts form _ fetched => exact ⟨form, fetched⟩
  | outOfBounds i addr _ fetched at_addr beyond => exact ⟨rfl, rfl, beyond, i, fetched, at_addr⟩
  | unimplemented i _ fetched reserved => exact ⟨rfl, reserved, i, fetched, rfl⟩
  | runsOn i u _ _ _ _ on => exact .of_running on

end Branches

/-! ### The inert state -/

/-- The state with another sp, arith and intr. -/
def State.withInert (s : State) (sp : Word) (arith intr : Byte) : State :=
  { s with sp := sp, arith := arith, intr := intr }

section Inert

variable {s t : State} (sp : Word) (arith intr : Byte)

theorem State.commit_withInert {α : Type} {r : Except RuntimeError α} {k k' : α → State} (h : s.commit r k = .next t)
    (hk : ∀ v, k' v = (k v).withInert sp arith intr) :
    (s.withInert sp arith intr).commit r k' = .next (t.withInert sp arith intr) := by
  rcases State.commit_next h with ⟨v, rfl, rfl⟩ | ⟨e, rfl, rfl⟩
  · rw [State.commit_ok, hk]
  · rfl

theorem jumpIfEq_withInert {v : Word} (h : jumpIfEq (.ok v) s = .next t) :
    jumpIfEq (.ok v) (s.withInert sp arith intr) = .next (t.withInert sp arith intr) := by
  by_cases hcmp : s.cmp = 0
  · rw [jumpIfEq_of_eq hcmp] at h
    rw [jumpIfEq_of_eq (s := s.withInert sp arith intr) hcmp, ← Host.Outcome.next.inj h]
    rfl
  · rw [jumpIfEq_of_ne hcmp] at h
    rw [jumpIfEq_of_ne (s := s.withInert sp arith intr) hcmp, Host.Outcome.next.inj h]

/-- No instruction reads or writes sp, arith or intr (R27, R30). -/
theorem exec_withInert {i : Instr} (h : exec i s = .next t) :
    exec i (s.withInert sp arith intr) = .next (t.withInert sp arith intr) := by
  cases i with
  | setM | setB | subM | subB | mulM | mulB | sdI | sdX | sdM | sdB =>
    exact State.commit_withInert sp arith intr h fun _ => rfl
  | ifnR d a b => exact jumpIfEq_withInert sp arith intr (v := s.reg b) h
  | ifnI d a v | ifnX d a v => exact jumpIfEq_withInert sp arith intr (v := v) h
  | setR | setI | setX | subR | subI | subX | mulR | mulI | mulX | jmpR | jmpI | jmpX | cmpR | hlt | psh | pop | mov
  | add | div | andOp | orOp | xor | notOp | sl | sr | ld | sd16 | ld16 | sd8 | ld8 | ld16s | ld8s | ifOp | ifg | ifl
  | ife | ifne | call | ret =>
    obtain rfl := Host.Outcome.next.inj h
    rfl

theorem State.retire_withInert (s : State) :
    (s.withInert sp arith intr).retire = s.retire.withInert sp arith intr := by
  by_cases hr : s.status = .running
  · rw [State.retire_of_running hr]
    exact State.retire_of_running hr
  · rw [State.retire_of_stopped hr]
    exact State.retire_of_stopped hr

theorem step_withInert (h : step s = .next t) :
    step (s.withInert sp arith intr) = .next (t.withInert sp arith intr) := by
  by_cases hr : s.status = .running
  case neg =>
    obtain rfl := Host.Outcome.next.inj ((step_of_stopped hr).symm.trans h)
    exact step_of_stopped hr
  case pos =>
    cases hl : s.limitReached with
    | true =>
      obtain rfl := Host.Outcome.next.inj ((step_of_limitReached hr hl).symm.trans h)
      exact step_of_limitReached hr hl
    | false =>
      cases hf : s.fetch with
      | none =>
        obtain rfl := Host.Outcome.next.inj ((step_of_fetch_none hr hl hf).symm.trans h)
        exact step_of_fetch_none hr hl hf
      | some i =>
        obtain ⟨u, hu⟩ := exec_total i s.beginInstr
        obtain rfl := Host.Outcome.next.inj ((step_of_exec hr hl hf hu).symm.trans h)
        rw [← State.retire_withInert]
        exact step_of_exec hr hl hf (exec_withInert sp arith intr hu)

end Inert

/-! ### Runs -/

section Runs

variable {s t : State}

theorem runSteps_of_stopped (h : s.status ≠ .running) (fuel : Nat) : runSteps fuel s = .next s := by
  cases fuel with
  | zero => rfl
  | succ fuel => rw [runSteps, if_neg h]

theorem runSteps_succ (hr : s.status = .running) (h : step s = .next t) (fuel : Nat) :
    runSteps (fuel + 1) s = runSteps fuel t := by
  simp only [runSteps, hr, h, if_true]

/-- What every step keeps a run of any length keeps. -/
theorem runSteps_keeps {P : State → Prop} (hstep : ∀ s t, P s → step s = .next t → P t) (fuel : Nat) :
    ∀ {s t : State}, P s → runSteps fuel s = .next t → P t := by
  induction fuel with
  | zero => intro s t hs h; exact Host.Outcome.next.inj h ▸ hs
  | succ fuel ih =>
    intro s t hs h
    by_cases hr : s.status = .running
    · obtain ⟨u, hu⟩ := step_total s
      exact ih (hstep s u hs hu) (runSteps_succ hr hu fuel ▸ h)
    · exact Host.Outcome.next.inj ((runSteps_of_stopped hr _).symm.trans h) ▸ hs

/-- With `left` steps left up to its limit a running machine stops within `left + 1` steps, at most the limit counted
(R228). -/
theorem runSteps_stops_at_limit {limit : Nat} (left : Nat) : ∀ {s : State}, s.status = .running →
    s.stepLimit = some limit → s.steps + left = limit →
    ∃ t, runSteps (left + 1) s = .next t ∧ t.status ≠ .running ∧ t.steps ≤ limit := by
  induction left with
  | zero =>
    intro s hr hl hleft
    have hreached := State.limitReached_iff.2 ⟨limit, hl, by omega⟩
    exact ⟨s.exceedLimit, by rw [runSteps_succ hr (step_of_limitReached hr hreached)]; rfl, nofun,
      by rw [State.exceedLimit_steps]; omega⟩
  | succ left ih =>
    intro s hr hl hleft
    obtain ⟨t, ht⟩ := step_total s
    have hout := step_outcome ht
    rw [runSteps_succ hr ht]
    rcases hout.steps_cases hr with ⟨hstop, hsteps⟩ | ⟨hrun, hsteps, -⟩
    · exact ⟨t, runSteps_of_stopped hstop _, hstop, by omega⟩
    · obtain ⟨-, -, -, -, hlimit, -⟩ := hout.keepsFixed
      exact ih hrun (hlimit.trans hl) (by omega)

end Runs

end Sys2Proof.Machine

namespace Sys2Proof.Proofs

open Sys2Proof.Machine

/-- Settles O44, by the outcomes of a step: one that stops the machine moves no data, and an advance keeps each part. -/
theorem stepKeepsInvariant : Obligations.StepKeepsInvariant :=
  fun _ _ hs h => (step_outcome h).inv hs

/-- Settles O45: each way to stop leaves its cause in the state. -/
theorem stepKeepsStopsExplained : Obligations.StepKeepsStopsExplained :=
  fun _ _ hs h => (step_outcome h).stopExplained hs

/-- Settles O34: the program's instruction at pc is the one fetched. -/
theorem stepRunsDecodedInstruction : Obligations.StepRunsDecodedInstruction := by
  intro s t i hr hl hi he
  have hf : s.fetch = some i := by
    rcases hi with ⟨m, ws, prog, -, hprog, hi⟩ | hi
    · rwa [State.fetch, State.dis, hprog]
    · exact hi
  exact ⟨step_of_exec_running hr hl hf he, step_of_exec_stopped hr hl hf he⟩

/-- Settles O35: the two branches of a step that come before the instruction. -/
theorem stepStopsBeforeExecuting : Obligations.StepStopsBeforeExecuting := by
  intro s hr
  refine ⟨fun limit hl hle => ?_, fun hbelow hpast => ?_⟩
  · exact step_of_limitReached hr (State.limitReached_iff.2 ⟨limit, hl, hle⟩)
  · have hl : s.limitReached = false := by
      refine Bool.eq_false_iff.2 fun hreached => ?_
      obtain ⟨limit, hlimit, hle⟩ := State.limitReached_iff.1 hreached
      exact Nat.not_lt.2 hle (hbelow limit hlimit)
    exact step_of_fetch_none hr hl (s.fetch_eq_none_iff.2 hpast)

/-- Settles O36: only a running machine fetches. -/
theorem stoppedMachineStaysPut : Obligations.StoppedMachineStaysPut := fun _ h => step_of_stopped h

/-- Settles O37: every branch of a step answers, and every instruction does. -/
theorem everyStepAnswersNext : Obligations.EveryStepAnswersNext := step_total

/-- Settles O38: a fault is a stop, and its index is the pc it stops at. -/
theorem faultsKeepNoWrites : Obligations.FaultsKeepNoWrites := by
  intro s t e index hr h hfault
  have hout := step_outcome h
  have hindex : index = s.pc := by
    cases hout with
    | stays stopped => exact (stopped hr).elim
    | limit | halts => cases hfault
    | overrun | outOfBounds | unimplemented => cases hfault; rfl
    | runsOn i u _ _ _ _ on => cases on.symm.trans hfault
  have heq := hout.eq_of_stops (by rw [hfault]; nofun)
  rw [hfault] at heq
  exact ⟨hindex, heq⟩

/-- Settles O39: a stop keeps pc, a jump writes its target's index, and every other instruction leaves pc to the
advance. -/
theorem pcAfterStepByInstruction : Obligations.PcAfterStepByInstruction := by
  intro s t i hr hl hf h
  have hout := step_outcome h
  refine ⟨fun hstop => ?_, fun hrun hjmp hifn => ?_, fun hifn hcmp => ?_, fun hjump => ?_⟩
  · rw [hout.eq_of_stops hstop]
  · cases hout with
    | stays stopped => exact (stopped hr).elim
    | limit | overrun | halts | outOfBounds | unimplemented => cases hrun
    | runsOn j u _ _ fetched effect _ =>
      obtain rfl := Option.some.inj (hf.symm.trans fetched)
      rcases effect.pc_cases with ⟨hpc, hjumped⟩ | ⟨hjump, -⟩
      · rw [State.advance_pc, hjumped, hpc]
        rfl
      · exact (hjump.elim hjmp fun h => hifn h.1).elim
  · have hstep := step_of_exec_running hr hl hf (exec_of_ifn_ne (s := s.beginInstr) hifn hcmp) hr
    rw [← Host.Outcome.next.inj (hstep.symm.trans h)]
    rfl
  · have hstep := step_of_exec_running hr hl hf (exec_of_jump (s := s.beginInstr) hjump) hr
    rw [← Host.Outcome.next.inj (hstep.symm.trans h)]
    refine (toNat_targetIndex _).trans ?_
    cases i.form <;> rfl

/-- Settles O40: the jump writes the pc it finds, and its mark keeps the advance from moving it. -/
theorem jumpToItselfStaysThere : Obligations.JumpToItselfStaysThere := by
  intro s d a v hr hl hf hv
  have hpc : targetIndex v = s.pc := BitVec.eq_of_toNat_eq ((toNat_targetIndex v).trans hv)
  have hexec : exec (.jmpX d a v) s.beginInstr = .next (s.beginInstr.jumpTo s.pc) := hpc ▸ exec_of_jump (.inl rfl)
  exact step_of_exec_running hr hl hf hexec hr

/-- Settles O41: no effect writes these, and neither does the sequencer. -/
theorem stepKeepsProgramAndInertState : Obligations.StepKeepsProgramAndInertState :=
  fun _ _ h => (step_outcome h).keepsFixed

/-- Settles O42: what a step writes is what the effect of the fetched instruction writes. -/
theorem eachPieceOfStateHasItsWriters : Obligations.EachPieceOfStateHasItsWriters := by
  intro s t h
  rcases (step_outcome h).writes_cases with ⟨hmem, hregs, hcmp, hjumped⟩ | ⟨i, u, hf, he, hmem, hregs, hcmp, hjumped⟩
  · refine ⟨fun a hne => ?_, fun r hne => ?_, fun hne => (hne hcmp).elim, fun hs ht => ?_⟩
    · exact (hne (by rw [hmem])).elim
    · exact (hne (State.reg_congr hregs r)).elim
    · rw [hjumped ht] at hs
      cases hs
  · refine ⟨fun a hne => ?_, fun r hne => ?_, fun hne => ?_, fun hs ht => ?_⟩
    · obtain ⟨hop, addr, haddr, hle, hlt⟩ := he.of_byte_ne (a := a) (hmem ▸ hne)
      exact ⟨i, addr, hf, hop, haddr, hle, hlt⟩
    · rw [State.reg_congr hregs] at hne
      obtain ⟨hop, hdest⟩ := he.of_reg_ne hne
      exact ⟨i, hf, hop, hdest⟩
    · rcases he.cmp_cases with hsame | ⟨hop, hcode⟩
      · exact (hne (hcmp.trans hsame)).elim
      · exact ⟨⟨i, hf, hop⟩, hcmp ▸ hcode⟩
    · rcases he.pc_cases with ⟨-, hsame⟩ | ⟨hop, -⟩
      · rw [hjumped, hsame] at ht
        cases ht
      · exact ⟨i, hf, hop⟩

/-- Settles O43: every branch of a step is the same with other inert state, and so is every instruction. -/
theorem inertStateIsNeverRead : Obligations.InertStateIsNeverRead :=
  fun _ _ sp arith intr h => step_withInert sp arith intr h

/-- Settles O49, by induction on the steps left up to the limit. -/
theorem stepLimitEndsEveryRun : Obligations.StepLimitEndsEveryRun :=
  fun s limit hr hl hle => runSteps_stops_at_limit (limit - s.steps) hr hl (by omega)

end Sys2Proof.Proofs
end

section
/-!
PROOFS. The host's transactions (spec/45_sequencer.md R222 to R228): what construction, a load, a start, a run and a
dump answer, that they keep the data invariant, and that a placed word is the next one fetched.
-/

namespace Sys2Proof.Machine

variable {s t : State}

/-! ### Construction -/

/-- A constructed machine meets the data invariant if its capacity is within the constraint and the program it keeps is
well formed and short enough. -/
theorem construct_inv {capacity : Nat} (hcap : capacity ≤ Config.maxCapacity) (fill : Byte) (limit : Option Nat)
    {program : Option (List Instr)} (hlen : (program.getD []).length < Config.maxProgram)
    (hwf : ∀ i ∈ program.getD [], i.wf = true) : (State.construct capacity fill limit program).Inv where
  memWf := construct_mem_wf hcap fill limit program
  inert := ⟨rfl, rfl, rfl⟩
  cmpCode := .inl rfl
  progLength := hlen
  progWf := hwf
  idleFresh := fun _ => ⟨rfl, rfl⟩
  pcBound := nofun
  notPending := rfl
  withinLimit := fun _ _ => Nat.zero_le _

/-! ### Load -/

section Load

variable {m : OpcodeMap} {ws : List Word} {prog : List Instr}

theorem hostLoad_of_error (hr : s.status ≠ .running) {e : DecodeError} (h : decode m ws = .error e) :
    hostLoad m ws s = .ok ⟨s.beginLoad, some e⟩ := by
  have hstream : streamFrom m none 0 ws = .error e := by rw [streamFrom_eq_decodeFrom, ← decode, h]; rfl
  simp only [hostLoad, if_neg hr, State.beginLoad_ext, hstream]

theorem streamFrom_of_decode (h : decode m ws = .ok prog) : streamFrom m none 0 ws = .ok (prog, none) := by
  rw [streamFrom_eq_decodeFrom, ← decode, h]
  rfl

theorem hostLoad_of_ok (hr : s.status ≠ .running) (h : decode m ws = .ok prog)
    (hlen : prog.length < Config.maxProgram) : hostLoad m ws s = .ok ⟨s.beginLoad.storeProgram prog none, none⟩ := by
  simp only [hostLoad, if_neg hr, State.beginLoad_ext, streamFrom_of_decode h, if_pos hlen]

theorem hostLoad_of_long (hr : s.status ≠ .running) (h : decode m ws = .ok prog)
    (hlen : ¬prog.length < Config.maxProgram) : hostLoad m ws s = .error .programTooLong := by
  simp only [hostLoad, if_neg hr, State.beginLoad_ext, streamFrom_of_decode h, if_neg hlen]

theorem State.beginLoad_of_ext_none (h : s.ext = none) : s.beginLoad = s := by
  rw [State.beginLoad, ← h]

/-- Storing a program that is well formed and short enough keeps the invariant. -/
theorem State.Inv.storeProgram (h : s.Inv) (hr : s.status ≠ .running)
    (hlen : prog.length < Config.maxProgram) (hwf : ∀ i ∈ prog, i.wf = true) : (s.storeProgram prog none).Inv :=
  { memWf := h.memWf, inert := h.inert, cmpCode := h.cmpCode, progLength := hlen, progWf := hwf,
    idleFresh := h.idleFresh, pcBound := fun hrun => (hr hrun).elim, notPending := rfl,
    withinLimit := h.withinLimit }

theorem hostLoad_inv {reply : LoadReply} (hs : s.Inv)
    (h : hostLoad m ws s = .ok reply) : reply.state.Inv := by
  by_cases hr : s.status = .running
  case pos => rw [hostLoad, if_pos hr] at h; cases h
  case neg =>
    cases hdec : decode m ws with
    | error e =>
      rw [hostLoad_of_error hr hdec, State.beginLoad_of_ext_none hs.notPending] at h
      cases h
      exact hs
    | ok prog =>
      by_cases hlen : prog.length < Config.maxProgram
      · rw [hostLoad_of_ok hr hdec hlen, State.beginLoad_of_ext_none hs.notPending] at h
        cases h
        exact hs.storeProgram hr hlen (decode_eq_ok_iff.1 hdec).wf
      · rw [hostLoad_of_long hr hdec hlen] at h
        cases h

end Load

/-! ### Start and run -/

/-- When a start answers: an Idle machine with a program becomes Running, a stopped one stays (R224). -/
theorem hostStart_eq_ok (h : hostStart s = .ok t) :
    s.status = .idle ∧ t = { s with status := .running } ∨ s.status ≠ .running ∧ t = s := by
  rw [hostStart] at h
  cases hstatus : s.status <;> simp only [hstatus] at h
  case idle =>
    split at h
    · exact .inl ⟨rfl, (Except.ok.inj h).symm⟩
    · cases h
  case running => cases h
  case halted | fault | stepLimitExceeded => exact .inr ⟨nofun, (Except.ok.inj h).symm⟩

/-- Starting an Idle machine keeps the invariant: it has executed nothing, so pc is 0. -/
theorem State.Inv.start (h : s.Inv) (hidle : s.status = .idle) : ({ s with status := .running } : State).Inv :=
  { memWf := h.memWf, inert := h.inert, cmpCode := h.cmpCode, progLength := h.progLength, progWf := h.progWf,
    idleFresh := nofun, pcBound := fun _ => .inr (by rw [(h.idleFresh hidle).1]; decide), notPending := h.notPending,
    withinLimit := h.withinLimit }

theorem hostStart_inv (hs : s.Inv) (h : hostStart s = .ok t) : t.Inv := by
  rcases hostStart_eq_ok h with ⟨hidle, rfl⟩ | ⟨-, rfl⟩
  · exact hs.start hidle
  · exact hs

/-- A run answers what the steps from the started machine answer (R224). -/
theorem hostRun_of_start (h : hostStart s = .ok t) (fuel : Nat) : hostRun fuel s = runSteps fuel t := by
  rw [hostRun, h]

theorem hostRun_inv {fuel : Nat} (hs : s.Inv) (h : hostRun fuel s = .next t) : t.Inv := by
  cases hstart : hostStart s with
  | error f => rw [hostRun, hstart] at h; cases h
  | ok u =>
    rw [hostRun_of_start hstart] at h
    exact runSteps_keeps (P := State.Inv) (fun _ _ hs h => (step_outcome h).inv hs) fuel (hostStart_inv hs hstart) h

/-- A machine with a result has stopped (R225). -/
theorem hostStart_of_runResult {r : RunResult} (h : s.runResult = some r) :
    s.status ≠ .running ∧ hostStart s = .ok s := by
  rw [State.runResult] at h
  rw [hostStart]
  cases hstatus : s.status <;> rw [hstatus] at h
  case idle | running => cases h
  case halted | fault | stepLimitExceeded => exact ⟨nofun, rfl⟩

/-! ### The placed instruction -/

/-- The instruction placed at pc is the one fetched: what precedes it in the program is as long as pc. -/
theorem State.placeInstr_fetch (s : State) (i : Instr) : (s.placeInstr i).fetch = some i := by
  have hlength : (s.dis.take s.pc.toNat ++ List.replicate (s.pc.toNat - s.dis.length) (Instr.hlt (.r 0 0 0))).length =
      s.pc.toNat := by
    rw [List.length_append, List.length_take, List.length_replicate]
    omega
  exact (List.getElem?_append_right hlength.le).trans (by rw [hlength, Nat.sub_self]; rfl)

end Sys2Proof.Machine

namespace Sys2Proof.Proofs

open Sys2Proof.Machine

/-- Settles O46: reset is a construction, and a construction keeps only the program. -/
theorem resetMeetsBothInvariants : Obligations.ResetMeetsBothInvariants := by
  refine ⟨construct_inv (by decide) _ _ (by decide) nofun, trivial, fun capacity fill limit s t h hs => ?_⟩
  obtain ⟨-, hcap, rfl⟩ := hostNew_eq_ok_iff.mp h
  exact ⟨construct_inv hcap fill limit hs.progLength hs.progWf, trivial⟩

/-- Settles O47: a load stores a decoded program or nothing, a start finds pc at 0, and a run is steps. -/
theorem hostTransactionsKeepInvariant : Obligations.HostTransactionsKeepInvariant :=
  fun _ hs => ⟨fun _ _ _ => hostLoad_inv hs, fun _ => hostStart_inv hs, fun _ _ => hostRun_inv hs⟩

/-- Settles O48: the streaming decoder of the load gives what the algorithm gives. -/
theorem loadStoresTheProgramOrNothing : Obligations.LoadStoresTheProgramOrNothing := by
  intro m ws s hr hext
  refine ⟨fun prog hdec hlen => ?_, fun e hdec => ?_⟩
  · rw [hostLoad_of_ok hr hdec hlen, State.beginLoad_of_ext_none hext, State.storeProgram, ← hext]
  · rw [hostLoad_of_error hr hdec, State.beginLoad_of_ext_none hext]

/-- Settles O20: where construction answers, it is with `State.construct`, and its two faults are its two conditions. -/
theorem constructionKeepsTheLoadedProgram : Obligations.ConstructionKeepsTheLoadedProgram := by
  intro capacity fill limit s
  refine ⟨fun hr hcap => ?_, fun hr hcap => ?_, fun hr => if_pos hr, rfl, rfl, rfl⟩
  · exact ⟨_, hostNew_eq_ok_iff.mpr ⟨hr, hcap, rfl⟩, rfl, rfl, rfl, rfl, rfl, rfl, rfl⟩
  · exact (if_neg hr).trans (if_neg (Nat.not_le.2 hcap))

/-- Settles O50: the start decides, and a stopped machine takes no step. -/
theorem runOfStoppedMachineTakesNoStep : Obligations.RunOfStoppedMachineTakesNoStep := by
  intro s fuel
  refine ⟨fun ⟨r, hres⟩ => ?_, fun hidle hprog => hostRun_of_start ?_ fuel, fun hidle hprog => ?_⟩
  · obtain ⟨hstop, hstart⟩ := hostStart_of_runResult hres
    rw [hostRun_of_start hstart, runSteps_of_stopped hstop]
  · simp only [hostStart, hidle, hprog, if_true]
  · simp [hostRun, hostStart, hidle, hprog]

/-- Settles O51: the dump reads the fields, and its window is the word read at the address where one can be. -/
theorem dumpShowsTheState : Obligations.DumpShowsTheState := by
  intro s addr hr
  refine ⟨_, if_neg hr, rfl, rfl, rfl, rfl, rfl, rfl, fun hle => ?_, fun hlt => ?_, _, if_neg hr, rfl⟩
  · exact ⟨_, congrArg Except.toOption (Memory.read32_of_le hle), toNat_ofNat_wordAt _ _⟩
  · exact congrArg Except.toOption (Memory.read32_of_lt hlt)

/-- Settles O52: the word's instruction is placed at pc, in a machine that runs with no limit. -/
theorem placedWordRunsNext : Obligations.PlacedWordRunsNext := by
  intro s nbits w i hw
  have hplaced : s.withFetchWord nbits w = s.placeInstr i := by rw [State.withFetchWord, hw]
  rw [hplaced]
  exact ⟨rfl, rfl, s.placeInstr_fetch i, rfl, rfl, rfl⟩

end Sys2Proof.Proofs
end
